-- ==== Sys2Proof/Word.lean ====
section
/-! DEFINITION. The word of the hardware: every stored value is one unsigned 8-bit byte (00_scope.md R5, R10), and a
register is named by its index 0 to 7 (10_state.md R20). -/
namespace Sys2Proof

/-- An unsigned 8-bit value: a register, a memory cell, `pc`, `fl` or `ir` (R10). -/
abbrev Byte := BitVec 8

/-- The index of a general register, `R0` to `R7` (R20). -/
abbrev Reg := Fin 8

end Sys2Proof
end

