-- ==== Sys2Proof/Config.lean ====
section
/-! DEFINITION. What is fixed for one machine: the constants of 00_scope.md R5, the thirteen mnemonics (R2), the four
formats (30_encoding.md R81 to R84), and the one parameter, `OPC`, the opcode byte of each mnemonic (R85, R92). The
default of `OPC` stands in Decode.lean. The hardware leaves no value free, so there is no opaque constant here. -/
namespace Sys2Proof

/-- `SP_INDEX`: register 7 is the stack pointer (R5, R22). -/
def spIndex : Reg := 7

/-- `SP_RESET`, 244: the empty-stack address (R5, R22). -/
def spReset : Byte := 0xF4

/-- `MEMSIZE`: cells 0 to 255 (R5, R36). -/
def memSize : Nat := 256

/-- The thirteen instructions of the source's opcode table, in the table's order (R2, R85). -/
inductive Mnemonic
  | hlt | ldi | prn | mul | add | push | pop | call | ret | cmp | jmp | jeq | jne
  deriving DecidableEq, Repr

/-- The rows of the opcode table in its order. -/
def Mnemonic.all : List Mnemonic :=
  [.hlt, .ldi, .prn, .mul, .add, .push, .pop, .call, .ret, .cmp, .jmp, .jeq, .jne]

/-- The instruction formats (R80): Z has no operand, R one register, RR two registers, RI a register and an immediate. -/
inductive Format
  | z | r | rr | ri
  deriving DecidableEq, Repr

/-- The parameters of the hardware. `opcode` is `OPC` of R85; R92 asks that it be injective, so a configuration carries
that fact and an ambiguous map cannot be built. -/
structure Config where
  opcode : Mnemonic → Byte
  opcode_injective : ∀ m n : Mnemonic, opcode m = opcode n → m = n

end Sys2Proof
end

