-- ==== Sys2Proof/Syntax.lean ====
section
/-! DEFINITION. The instructions as syntax: one constructor for each row of the opcode table (30_encoding.md R85). An
operand is the whole byte that stands in memory (R91): a register operand keeps its raw value, because a value above 7
is not a malformed word but an instruction that raises RegisterIndexFault (40_loop_and_data.md R114). -/
namespace Sys2Proof

/-- The thirteen instructions with their operand bytes in the table's order (`reg`, `imm8`, `regA`, `regB`). -/
inductive Instr
  | hlt
  | ldi (r imm : Byte)
  | prn (r : Byte)
  | mul (ra rb : Byte)
  | add (ra rb : Byte)
  | push (r : Byte)
  | pop (r : Byte)
  | call (r : Byte)
  | ret
  | cmp (ra rb : Byte)
  | jmp (r : Byte)
  | jeq (r : Byte)
  | jne (r : Byte)
  deriving DecidableEq, Repr

/-- The table row an instruction belongs to. -/
def Instr.mnemonic : Instr → Mnemonic
  | .hlt => .hlt
  | .ldi _ _ => .ldi
  | .prn _ => .prn
  | .mul _ _ => .mul
  | .add _ _ => .add
  | .push _ => .push
  | .pop _ => .pop
  | .call _ => .call
  | .ret => .ret
  | .cmp _ _ => .cmp
  | .jmp _ => .jmp
  | .jeq _ => .jeq
  | .jne _ => .jne

/-- The operand bytes that are register operands, `a` before `b` (R114): never the immediate of LDI. -/
def Instr.regOperands : Instr → List Byte
  | .hlt => []
  | .ldi r _ => [r]
  | .prn r => [r]
  | .mul ra rb => [ra, rb]
  | .add ra rb => [ra, rb]
  | .push r => [r]
  | .pop r => [r]
  | .call r => [r]
  | .ret => []
  | .cmp ra rb => [ra, rb]
  | .jmp r => [r]
  | .jeq r => [r]
  | .jne r => [r]

end Sys2Proof
end

