-- ==== Sys2Proof/WellFormed.lean ====
section
/-! DEFINITION. Well-formed instructions: every register operand byte names a register, 0 to 7 (30_encoding.md R91). An
instruction that is not well-formed still decodes; executing it raises RegisterIndexFault (40_loop_and_data.md R114). -/
namespace Sys2Proof

/-- A register operand byte names a register exactly when its value is 0 to 7 (R91). -/
def regByteOk (v : Byte) : Bool := decide (v.toNat ≤ 7)

/-- Every register operand byte of the instruction names a register; an immediate is never checked (R90, R114). -/
def Instr.wellFormed (i : Instr) : Bool := i.regOperands.all regByteOk

end Sys2Proof
end

