-- ==== Sys2Proof/Decode.lean ====
section
/-! DEFINITION. The instruction encoding of 30_encoding.md: the formats and lengths (R80 to R84), the opcode map (R85) as
the default of the parameter `OPC`, the decoder (R87, R88) and, after it, the encoder. Decoding compares the whole of
byte 0 with the table and looks at no other state. -/
namespace Sys2Proof

/-- The format column of R85. -/
def Mnemonic.format : Mnemonic → Format
  | .hlt => .z
  | .ldi => .ri
  | .prn => .r
  | .mul => .rr
  | .add => .rr
  | .push => .r
  | .pop => .r
  | .call => .r
  | .ret => .z
  | .cmp => .rr
  | .jmp => .r
  | .jeq => .r
  | .jne => .r

/-- The number of operand bytes of a format (R81 to R84). -/
def Format.operandCount : Format → Nat
  | .z => 0
  | .r => 1
  | .rr => 2
  | .ri => 2

/-- The operand count column of R85. -/
def Mnemonic.operandCount (m : Mnemonic) : Nat := m.format.operandCount

/-- The length in bytes: one opcode byte and the operand bytes (R80). -/
def Mnemonic.length (m : Mnemonic) : Nat := 1 + m.operandCount

/-- The `op` column of R85. UNVERIFIED (log 1): the spec gives these values as the default of `OPC` and says itself that its
source states none, so that they are general knowledge of the LS-8 family (92_eei_decisions.md D1,
93_implementation_defined.md K1). -/
def defaultOpcode : Mnemonic → Byte
  | .hlt => 0x01
  | .ldi => 0x82
  | .prn => 0x47
  | .mul => 0xA2
  | .add => 0xA0
  | .push => 0x45
  | .pop => 0x46
  | .call => 0x50
  | .ret => 0x11
  | .cmp => 0xA7
  | .jmp => 0x54
  | .jeq => 0x55
  | .jne => 0x56

/-- The configuration every fixed name of this model runs with: the default opcode map of R85, which is injective (R92). -/
def defaultConfig : Config where
  opcode := defaultOpcode
  opcode_injective := by
    intro m n
    cases m <;> cases n <;> decide

/-- Why bytes are no instruction: the opcode byte is not in the table (R88), an operand byte is missing, or there is no
byte at all. -/
inductive DecodeError
  | noBytes
  | unknownOpcode (op : Byte)
  | missingOperand (m : Mnemonic)
  deriving DecidableEq, Repr

/-- What the decoder answers: an instruction and the bytes after it, or a rejection that says why. -/
inductive DecodeResult
  | ok (i : Instr) (rest : List Byte)
  | rejected (e : DecodeError)
  deriving DecidableEq, Repr

/-- The table row an opcode byte selects, all eight bits compared (R85, R87); none for an unrecognised opcode (R88). -/
def lookupOpcode (c : Config) (op : Byte) : Option Mnemonic :=
  Mnemonic.all.find? fun m => c.opcode m == op

/-- The instruction of a table row with operand bytes `a` and `b`; a row that has fewer operands ignores the others. -/
def Mnemonic.withOperands (a b : Byte) : Mnemonic → Instr
  | .hlt => .hlt
  | .ldi => .ldi a b
  | .prn => .prn a
  | .mul => .mul a b
  | .add => .add a b
  | .push => .push a
  | .pop => .pop a
  | .call => .call a
  | .ret => .ret
  | .cmp => .cmp a b
  | .jmp => .jmp a
  | .jeq => .jeq a
  | .jne => .jne a

/-- Read the operand bytes a row needs, in ascending address order (R81 to R84, 20_memory.md R52); none if there are too
few. -/
def decodeOperands (m : Mnemonic) (bytes : List Byte) : Option (Instr × List Byte) :=
  match m.format, bytes with
  | .z, rest => some (m.withOperands 0 0, rest)
  | .r, a :: rest => some (m.withOperands a 0, rest)
  | .rr, a :: b :: rest => some (m.withOperands a b, rest)
  | .ri, a :: b :: rest => some (m.withOperands a b, rest)
  | .r, [] => none
  | .rr, _ => none
  | .ri, _ => none

/-- Decode the instruction at the head of a list of bytes. Total: bytes that are no instruction are rejected by name. -/
def decode (c : Config) : List Byte → DecodeResult
  | [] => .rejected .noBytes
  | op :: bytes =>
    match lookupOpcode c op with
    | none => .rejected (.unknownOpcode op)
    | some m =>
      match decodeOperands m bytes with
      | none => .rejected (.missingOperand m)
      | some (i, rest) => .ok i rest

/-- The bytes of an instruction: the opcode, then the operands in the table's order (R81 to R84). -/
def encode (c : Config) : Instr → List Byte
  | .hlt => [c.opcode .hlt]
  | .ldi r imm => [c.opcode .ldi, r, imm]
  | .prn r => [c.opcode .prn, r]
  | .mul ra rb => [c.opcode .mul, ra, rb]
  | .add ra rb => [c.opcode .add, ra, rb]
  | .push r => [c.opcode .push, r]
  | .pop r => [c.opcode .pop, r]
  | .call r => [c.opcode .call, r]
  | .ret => [c.opcode .ret]
  | .cmp ra rb => [c.opcode .cmp, ra, rb]
  | .jmp r => [c.opcode .jmp, r]
  | .jeq r => [c.opcode .jeq, r]
  | .jne r => [c.opcode .jne, r]

/-- The three bytes of a table word: bit 0 is the least significant bit of byte 0 and the bits from `nbits` up are 0. -/
def tableWordBytes (nbits w : Nat) : List Byte :=
  let v := w % 2 ^ nbits
  [BitVec.ofNat 8 v, BitVec.ofNat 8 (v / 256), BitVec.ofNat 8 (v / 65536)]

/-- The instruction the default decoder reads from a word numbered as spec/opcode_table.json numbers it. -/
def decodeTableWord (nbits w : Nat) : Option Instr :=
  match decode defaultConfig (tableWordBytes nbits w) with
  | .ok i _ => some i
  | .rejected _ => none

end Sys2Proof
end

