-- ==== Sys2Proof/Machine/State.lean ====
section
/-! DEFINITION. Everything the spec gives the machine, as plain data: the eight registers, `pc`, `fl`, `ir`, the run status
with its fault record, the 256 cells of memory and the output log (10_state.md R20 to R41; 60_exceptions.md R202, R203),
and their values after reset (R41). -/
namespace Sys2Proof.Machine

/-- The register file, eight general registers (R20). `r7` is the stack pointer: SP is another name for it, not another
register (R22). -/
structure RegFile where
  r0 : Byte
  r1 : Byte
  r2 : Byte
  r3 : Byte
  r4 : Byte
  r5 : Byte
  r6 : Byte
  r7 : Byte
  deriving DecidableEq, Repr

/-- The four fault causes with the field each adds to the record (R202). -/
inductive FaultCause
  /-- DecodeFault: the byte fetched at `pc` is not an opcode (R205). -/
  | decode
  /-- AddressFault: an address derived from `pc` is above 255; `addr` is that number, 256 to 258 (R206). -/
  | address (addr : Nat)
  /-- RegisterIndexFault: a register operand byte is above 7; `index` is that byte (R207). -/
  | registerIndex (index : Byte)
  /-- AluMisuseFault: the ALU was given a tag other than ADD, MUL, CMP; no program reaches it (R208). -/
  | aluMisuse
  deriving DecidableEq, Repr

/-- The cause codes of R202. -/
def FaultCause.code : FaultCause → Nat
  | .decode => 1
  | .address _ => 2
  | .registerIndex _ => 3
  | .aluMisuse => 4

/-- The fault record (R203): the cause, the opcode byte in `ir`, and the address of the faulting instruction. -/
structure FaultRecord where
  cause : FaultCause
  opcode : Byte
  pc : Byte
  deriving DecidableEq, Repr

/-- The run status (R34). `halt` and `fault` are terminal. -/
inductive Status
  | idle
  | run
  | halt
  | fault (record : FaultRecord)
  deriving DecidableEq, Repr

/-- Memory: the listed cells, in the canonical form `Memory.wf` (Ops.lean); an address that is not listed holds 0x00, the
value every cell has after reset (R41; log 8). -/
abbrev Memory := List Host.Cell

/-- The whole state of the machine (10_state.md, opening paragraph). -/
structure State where
  x : RegFile
  pc : Byte
  fl : Byte
  ir : Byte
  status : Status
  mem : Memory
  out : List Byte
  deriving DecidableEq, Repr

/-- Why `step` answers no next state: the status has no step (R110, R35; log 4). The spec's own four faults are NOT here:
taking one is a next state whose status is `fault` (R201, R204; log 3). All three are safe: nothing is claimed of a step
the spec does not define. -/
inductive Fault
  /-- Raised by `step` in IDLE: the loop has not been started (R34). Safe. -/
  | notStarted
  /-- Raised by `step` in HALT: the run has completed; this is the normal end of a run (R217). Safe. -/
  | halted
  /-- Raised by `step` in FAULT: the run ended with this record (R211). Safe. -/
  | stopped (record : FaultRecord)
  deriving DecidableEq, Repr

/-- Refusals of the model. -/
inductive Refusal
  /-- Raised by an arm of `exec` whose instruction has no meaning yet; in this model by none. Safe. -/
  | notModelled (mnemonic : String)
  deriving DecidableEq, Repr

/-- The registers after reset: zero, but SP at the empty-stack address (R41). -/
def RegFile.reset : RegFile := ⟨0, 0, 0, 0, 0, 0, 0, spReset⟩

/-- The machine right after reset (R41, R240): every field at the value the spec states. -/
def State.reset : State where
  x := RegFile.reset
  pc := 0
  fl := 0
  ir := 0
  status := .idle
  mem := []
  out := []

end Sys2Proof.Machine
end

