-- ==== Sys2Proof/Machine/Ops.lean ====
section
/-! DEFINITION. The named operations over registers, memory, `pc`, `fl`, `ir`, status and output log that the meanings are
written with (00_scope.md R11), and the taking of a fault as one shared operation (60_exceptions.md R201 to R204). There
is no return from a fault: R211 says there is nothing to return to. -/
namespace Sys2Proof.Machine

/-- `x[r]` (R11). -/
def RegFile.get (x : RegFile) (r : Reg) : Byte :=
  match r with
  | 0 => x.r0
  | 1 => x.r1
  | 2 => x.r2
  | 3 => x.r3
  | 4 => x.r4
  | 5 => x.r5
  | 6 => x.r6
  | 7 => x.r7

/-- `x[r] <- v` (R11). No register is hardwired (R20). -/
def RegFile.set (x : RegFile) (r : Reg) (v : Byte) : RegFile :=
  match r with
  | 0 => { x with r0 := v }
  | 1 => { x with r1 := v }
  | 2 => { x with r2 := v }
  | 3 => { x with r3 := v }
  | 4 => { x with r4 := v }
  | 5 => { x with r5 := v }
  | 6 => { x with r6 := v }
  | 7 => { x with r7 := v }

/-- The canonical form of memory: addresses strictly rise and exist, and no listed cell holds the value 0x00 that an
unlisted address reads as. -/
abbrev Memory.wf (m : Memory) : Prop :=
  m.Pairwise (fun c d => c.1 < d.1) ∧ ∀ c ∈ m, c.1 < memSize ∧ c.2 ≠ 0

/-- The byte in the cell with number `a`; an unlisted cell holds 0x00 (R41, R54). -/
def Memory.read : Memory → Nat → Byte
  | [], _ => 0
  | (b, v) :: m, a => if a = b then v else Memory.read m a

/-- Take the cell with number `a` off the list, so that it reads as 0x00. -/
def Memory.clearCell (m : Memory) (a : Nat) : Memory := m.filter fun c => c.1 != a

/-- List a cell in its place by address. -/
def Memory.insertCell : Memory → Nat → Byte → Memory
  | [], a, v => [(a, v)]
  | (b, w) :: m, a, v => if a < b then (a, v) :: (b, w) :: m else (b, w) :: Memory.insertCell m a v

/-- Put byte `v` into the cell with number `a`, keeping the canonical form (R11, R54): writing 0x00, which an unlisted cell
reads as, only takes the cell off the list. -/
def Memory.write (m : Memory) (a : Nat) (v : Byte) : Memory :=
  if v = 0 then m.clearCell a else (m.clearCell a).insertCell a v

/-- `x[r]`. -/
def State.reg (s : State) (r : Reg) : Byte := s.x.get r

/-- `x[r] <- v`. -/
def State.setReg (s : State) (r : Reg) (v : Byte) : State := { s with x := s.x.set r v }

/-- The stack pointer, `x[7]` (R22). -/
def State.sp (s : State) : Byte := s.reg spIndex

/-- `pc <- t`. -/
def State.setPc (s : State) (t : Byte) : State := { s with pc := t }

/-- `fl <- v`. -/
def State.setFl (s : State) (v : Byte) : State := { s with fl := v }

/-- `status <- v`. -/
def State.setStatus (s : State) (v : Status) : State := { s with status := v }

/-- `MemRead(a, 1)`: every 8-bit address exists (R50, R55). -/
def State.memRead (s : State) (a : Byte) : Byte := s.mem.read a.toNat

/-- `MemWrite(a, 1, v)`. -/
def State.memWrite (s : State) (a v : Byte) : State := { s with mem := s.mem.write a.toNat v }

/-- `emit(v)`: append to the output log (R38). -/
def State.emit (s : State) (v : Byte) : State := { s with out := s.out ++ [v] }

/-- `ir <- MemRead(pc, 1)`, the opcode fetch that begins every step (R32, R111). -/
def State.latchOpcode (s : State) : State := { s with ir := s.memRead s.pc }

/-- `x[7] <- (x[7] - 1) mod 256`, the first half of a push (R22, R160). -/
def State.lowerSp (s : State) : State := s.setReg spIndex (s.sp - 1)

/-- `x[7] <- (x[7] + 1) mod 256`, the second half of a pop (R22, R160). -/
def State.raiseSp (s : State) : State := s.setReg spIndex (s.sp + 1)

/-- The number `p + k` as the next `pc`. The address check has shown it to be at most 255 (R113, R115). -/
def State.pcPlus (s : State) (k : Nat) : Byte := BitVec.ofNat 8 (s.pc.toNat + k)

/-- Fall through: `pc <- p + 1 + operand count` (R115). -/
def State.advance (s : State) (m : Mnemonic) : State := s.setPc (s.pcPlus m.length)

/-- TAKE A FAULT: `status <- FAULT(rec)` with the cause, the opcode in `ir` and the address still in `pc`, and no other
change (R201, R203, R204). There is no handler to go to and no state saved elsewhere. -/
def State.takeFault (s : State) (cause : FaultCause) : State :=
  s.setStatus (.fault { cause := cause, opcode := s.ir, pc := s.pc })

end Sys2Proof.Machine
end

