-- ==== Sys2Proof/Machine/Flags.lean ====
section
/-! DEFINITION. The flags register: the three flag bits (10_state.md R29), the value CMP writes (41_alu.md R144) and the one
test an instruction can make of it, the Equal bit (43_branch.md R180). -/
namespace Sys2Proof.Machine

/-- E, bit 0: the last CMP found its operands equal (R29). -/
def flagE : Byte := 0b00000001

/-- G, bit 1: the last CMP found regA greater (R29). -/
def flagG : Byte := 0b00000010

/-- L, bit 2: the last CMP found regA less (R29). -/
def flagL : Byte := 0b00000100

/-- The whole of `fl` after CMP of `u` with `v`, compared as unsigned numbers (R144). -/
def compareFlags (u v : Byte) : Byte :=
  if u.toNat = v.toNat then flagE
  else if v.toNat < u.toNat then flagG
  else flagL

/-- `fl[0] = 1`, the only condition the hardware can test (R180). -/
def equalBit (fl : Byte) : Bool := fl.getLsbD 0

end Sys2Proof.Machine
end

