-- ==== Sys2Proof/Machine/Operands.lean ====
section
/-! DEFINITION. The operand forms and the checks a step makes before an instruction has any effect: the address check
(40_loop_and_data.md R113) and the register index check (R114). Each check either takes its fault, as a next state, or
goes on; written one inside the other they give the priority of 60_exceptions.md R210. -/
namespace Sys2Proof.Machine

/-- What a meaning answers. -/
abbrev Result := Host.Outcome State Fault Refusal

/-- `need` of R113: the largest address derived from `p` that the instruction uses to fetch, to return to or to fall
through to. It is a number, not a byte, so that a result above 255 is seen (10_state.md R25). -/
def need (m : Mnemonic) (s : State) : Nat :=
  match m with
  | .hlt => s.pc.toNat
  | .ret => s.pc.toNat
  | .jmp => s.pc.toNat + 1
  | .jeq => if equalBit s.fl then s.pc.toNat + 1 else s.pc.toNat + 2
  | .jne => if equalBit s.fl then s.pc.toNat + 2 else s.pc.toNat + 1
  | .call => s.pc.toNat + 2
  | .prn => s.pc.toNat + 2
  | .push => s.pc.toNat + 2
  | .pop => s.pc.toNat + 2
  | .ldi => s.pc.toNat + 3
  | .add => s.pc.toNat + 3
  | .mul => s.pc.toNat + 3
  | .cmp => s.pc.toNat + 3

/-- The address check: AddressFault with `addr = need` if it exceeds 255 (R113, R206), else go on. -/
def checkAddress (m : Mnemonic) (s : State) (go : Result) : Result :=
  if need m s < memSize then go else .next (s.takeFault (.address (need m s)))

/-- The register a register operand byte names: its value is the index, with no masking; none for 8 to 255 (R91). -/
def regOf (v : Byte) : Option Reg :=
  if h : v.toNat < 8 then some ⟨v.toNat, h⟩ else none

/-- The register index check of one register operand byte: RegisterIndexFault with that byte (R114, R207), else go on with
the register. -/
def checkReg (v : Byte) (s : State) (go : Reg → Result) : Result :=
  match regOf v with
  | some r => go r
  | none => .next (s.takeFault (.registerIndex v))

/-- Format R: the address check, then the check of the one register operand (R82, R110). -/
def checkR (m : Mnemonic) (a : Byte) (s : State) (go : Reg → Result) : Result :=
  checkAddress m s (checkReg a s go)

/-- Format RR: the address check, then the register operands, `a` first (R83, R110, R114). -/
def checkRR (m : Mnemonic) (a b : Byte) (s : State) (go : Reg → Reg → Result) : Result :=
  checkAddress m s (checkReg a s fun ra => checkReg b s fun rb => go ra rb)

end Sys2Proof.Machine
end

