-- ==== Sys2Proof/Machine/Alu.lean ====
section
/-! DEFINITION. The ALU of 41_alu.md, a pure function of a tag and two bytes (R140), and its three instructions ADD (R142),
MUL (R143) and CMP (R144). -/
namespace Sys2Proof.Machine

/-- The operation tag at the ALU boundary: the three operations, and any tag outside them (R141; log 9). -/
inductive AluTag
  | add
  | mul
  | cmp
  | unsupported
  deriving DecidableEq, Repr

/-- What the ALU gives back: a result for `x[ra]`, a new value of `fl`, or the misuse fault (R140, R141). -/
inductive AluOutput
  | result (v : Byte)
  | flags (fl : Byte)
  | misuse
  deriving DecidableEq, Repr

/-- The ALU (R140): exact sum or product of the unsigned operands, narrowed modulo 256 (R145), or the flags of a
comparison; every other tag is a fault, never a value (R141). -/
def alu (tag : AluTag) (u v : Byte) : AluOutput :=
  match tag with
  | .add => .result (BitVec.ofNat 8 (u.toNat + v.toNat))
  | .mul => .result (BitVec.ofNat 8 (u.toNat * v.toNat))
  | .cmp => .flags (compareFlags u v)
  | .unsupported => .misuse

/-- One ALU instruction of format RR after its checks: both operands are read before anything is written (R146); ADD and
MUL write `x[ra]` and leave `fl`, CMP writes `fl` and no register; then fall through. An unsupported tag takes
AluMisuseFault (R208). -/
def runAlu (tag : AluTag) (m : Mnemonic) (ra rb : Reg) (s : State) : Result :=
  match alu tag (s.reg ra) (s.reg rb) with
  | .result v => .next ((s.setReg ra v).advance m)
  | .flags f => .next ((s.setFl f).advance m)
  | .misuse => .next (s.takeFault .aluMisuse)

/-- ADD ra, rb (R142). -/
def execAdd (ra rb : Byte) (s : State) : Result :=
  checkRR .add ra rb s fun a b => runAlu .add .add a b s

/-- MUL ra, rb (R143): the low 8 bits of the product; the high byte is lost. -/
def execMul (ra rb : Byte) (s : State) : Result :=
  checkRR .mul ra rb s fun a b => runAlu .mul .mul a b s

/-- CMP ra, rb (R144). -/
def execCmp (ra rb : Byte) (s : State) : Result :=
  checkRR .cmp ra rb s fun a b => runAlu .cmp .cmp a b s

end Sys2Proof.Machine
end

