-- ==== Sys2Proof/Machine/Branch.lean ====
section
/-! DEFINITION. The branches of 43_branch.md: JMP (R181), JEQ (R182) and JNE (R183). Targets are whole register values; the
only condition is the Equal bit (R180). -/
namespace Sys2Proof.Machine

/-- JMP r (R181). -/
def execJmp (r : Byte) (s : State) : Result :=
  checkR .jmp r s fun r => .next (s.setPc (s.reg r))

/-- JEQ r (R182): taken when the Equal bit is 1, else fall through; the operand is checked either way (R186). -/
def execJeq (r : Byte) (s : State) : Result :=
  checkR .jeq r s fun r =>
    if equalBit s.fl then .next (s.setPc (s.reg r)) else .next (s.advance .jeq)

/-- JNE r (R183): taken when the Equal bit is 0, else fall through; the operand is checked either way (R186). -/
def execJne (r : Byte) (s : State) : Result :=
  checkR .jne r s fun r =>
    if equalBit s.fl then .next (s.advance .jne) else .next (s.setPc (s.reg r))

end Sys2Proof.Machine
end

