-- ==== Sys2Proof/Machine/Loop.lean ====
section
/-! DEFINITION. The instructions of 40_loop_and_data.md: HLT (R117), LDI (R118) and PRN (R120). -/
namespace Sys2Proof.Machine

/-- HLT (R117): `status <- HALT`; `pc` stays at the HLT (92_eei_decisions.md D4). It raises no fault. -/
def execHlt (s : State) : Result :=
  .next (s.setStatus .halt)

/-- LDI r, imm8 (R118): `x[r] <- b; pc <- p + 3`. The immediate is used as it stands and never checked (R90). -/
def execLdi (r imm : Byte) (s : State) : Result :=
  checkR .ldi r s fun r => .next ((s.setReg r imm).advance .ldi)

/-- PRN r (R120): `emit(x[r]); pc <- p + 2`. -/
def execPrn (r : Byte) (s : State) : Result :=
  checkR .prn r s fun r => .next ((s.emit (s.reg r)).advance .prn)

end Sys2Proof.Machine
end

