-- ==== Sys2Proof/Machine/Stack.lean ====
section
/-! DEFINITION. The stack and subroutine instructions of 42_stack_subroutine.md: PUSH (R162), POP (R163), CALL (R164) and
RET (R165). Each is its pseudocode carried out line by line, a register read on a line seeing the writes of the lines
before it, which also gives R7 as an operand its meaning (R168; log 5). -/
namespace Sys2Proof.Machine

/-- PUSH r after its checks: lower SP, then store `x[r]`, read after the decrement, where SP now points (R162, R168). -/
def State.pushReg (s : State) (r : Reg) : State :=
  s.lowerSp.memWrite s.lowerSp.sp (s.lowerSp.reg r)

/-- POP r after its checks: load `x[r]` from where SP points, then raise SP, which for R7 is the value just loaded (R163,
R168). -/
def State.popReg (s : State) (r : Reg) : State :=
  (s.setReg r (s.memRead s.sp)).raiseSp

/-- The pushing half of CALL: lower SP, then store the return address `p + 2` where SP now points (R164). -/
def State.pushReturn (s : State) : State :=
  s.lowerSp.memWrite s.lowerSp.sp (s.pcPlus 2)

/-- PUSH r (R162). -/
def execPush (r : Byte) (s : State) : Result :=
  checkR .push r s fun r => .next ((s.pushReg r).advance .push)

/-- POP r (R163). -/
def execPop (r : Byte) (s : State) : Result :=
  checkR .pop r s fun r => .next ((s.popReg r).advance .pop)

/-- CALL r (R164): the target is `x[r]` read after the decrement, so CALL R7 goes to the lowered SP (R168). -/
def execCall (r : Byte) (s : State) : Result :=
  checkR .call r s fun r => .next (s.pushReturn.setPc (s.pushReturn.reg r))

/-- RET (R165): `pc` from the cell SP points at, then raise SP. It raises no fault. -/
def execRet (s : State) : Result :=
  .next ((s.setPc (s.memRead s.sp)).raiseSp)

end Sys2Proof.Machine
end

