-- ==== Sys2Proof/Machine/Dispatch.lean ====
section
/-! DEFINITION. The one dispatch from instructions to their meanings, one arm for each row of the opcode table. -/
namespace Sys2Proof.Machine

/-- Execute an instruction whose opcode is in `ir` and whose address is in `pc` (40_loop_and_data.md R110). -/
def exec (i : Instr) (s : State) : Host.Outcome State Fault Refusal :=
  match i with
  | .hlt => Sys2Proof.Machine.execHlt s
  | .ldi r imm => Sys2Proof.Machine.execLdi r imm s
  | .prn r => Sys2Proof.Machine.execPrn r s
  | .mul ra rb => Sys2Proof.Machine.execMul ra rb s
  | .add ra rb => Sys2Proof.Machine.execAdd ra rb s
  | .push r => Sys2Proof.Machine.execPush r s
  | .pop r => Sys2Proof.Machine.execPop r s
  | .call r => Sys2Proof.Machine.execCall r s
  | .ret => Sys2Proof.Machine.execRet s
  | .cmp ra rb => Sys2Proof.Machine.execCmp ra rb s
  | .jmp r => Sys2Proof.Machine.execJmp r s
  | .jeq r => Sys2Proof.Machine.execJeq r s
  | .jne r => Sys2Proof.Machine.execJne r s

end Sys2Proof.Machine
end

