-- ==== Sys2Proof/Machine/Fetch.lean ====
section
/-! DEFINITION. Fetching an instruction's bytes (40_loop_and_data.md R111, 20_memory.md R50 to R52), the body of a step that
runs (R110), and placing bytes in memory. -/
namespace Sys2Proof.Machine

/-- The bytes of up to `n` consecutive cells from number `a` up; cells past 255 do not exist and give no byte (R50). -/
def Memory.bytesFrom (m : Memory) (a : Nat) : Nat → List Byte
  | 0 => []
  | n + 1 => if a < memSize then m.read a :: Memory.bytesFrom m (a + 1) n else []

/-- Put bytes into consecutive cells from number `a` up; a byte that would fall past 255 goes nowhere (log 10). -/
def Memory.putBytes (m : Memory) (a : Nat) : List Byte → Memory
  | [] => m
  | v :: vs => if a < memSize then Memory.putBytes (m.write a v) (a + 1) vs else m

/-- The bytes at `pc`, up to the longest instruction (R80). -/
def State.fetchBytes (s : State) : List Byte := s.mem.bytesFrom s.pc.toNat 3

/-- The bytes after the opcode byte, up to two (R50). -/
def State.operandBytes (s : State) : List Byte := s.mem.bytesFrom (s.pc.toNat + 1) 2

/-- One step of a running core (R110): latch the opcode; if it is no opcode, DecodeFault (R112); if an operand byte would
lie past 255, AddressFault with `addr = need`, which then exceeds 255 too (R113); else execute the instruction, whose
meaning makes the rest of the address check and the register index check. -/
def runStep (c : Config) (s : State) : Result :=
  match lookupOpcode c s.latchOpcode.ir with
  | none => .next (s.latchOpcode.takeFault .decode)
  | some m =>
    match decodeOperands m s.operandBytes with
    | none => .next (s.latchOpcode.takeFault (.address (need m s.latchOpcode)))
    | some (i, _) => exec i s.latchOpcode

end Sys2Proof.Machine
end

