-- ==== Sys2Proof/Machine/Step.lean ====
section
/-! DEFINITION. The step (40_loop_and_data.md R110), for any opcode map and for the default one, and the placing of one
instruction where the next step fetches it. -/
namespace Sys2Proof.Machine

/-- One step under the opcode map of `c`. It is defined exactly in RUN (R110, R35); in another status it answers the fault
outcome that names why there is no step (log 4). -/
def stepWith (c : Config) (s : State) : Host.Outcome State Fault Refusal :=
  match s.status with
  | .run => runStep c s
  | .idle => .fault .notStarted
  | .halt => .fault .halted
  | .fault record => .fault (.stopped record)

/-- One step under the default opcode map (R85). -/
def step (s : State) : Host.Outcome State Fault Refusal := stepWith defaultConfig s

/-- The state in which the next step fetches and runs the table word `w`: its bytes at `pc`, and the run started. It stands
for the load and start events of 10_state.md R39 (log 2, log 10). -/
def State.withFetchWord (s : State) (nbits w : Nat) : State :=
  { s with mem := s.mem.putBytes s.pc.toNat (tableWordBytes nbits w), status := .run }

end Sys2Proof.Machine
end

