-- ==== Sys2Proof/Machine/HostEvents.lean ====
section
/-! DEFINITION. What the host can do to the core and read from it: the events of 10_state.md R39, the load of a program
image and the launch state (70_reset_and_hazards.md R240 to R247). Events land between steps, never inside one (R242). -/
namespace Sys2Proof.Machine

/-- The inward events of R39: reset, load of one byte by the Loader, start. -/
inductive HostEvent
  | reset
  | load (a v : Byte)
  | start
  deriving DecidableEq, Repr

/-- The effect of an inward event. Reset acts in any status and re-creates all state (R240); load and start act in IDLE
only and otherwise change nothing (R35, 20_memory.md R64, 92_eei_decisions.md D22). -/
def State.hostEvent (s : State) (e : HostEvent) : State :=
  match e with
  | .reset => State.reset
  | .load a v => if s.status = .idle then s.memWrite a v else s
  | .start => if s.status = .idle then s.setStatus .run else s

/-- The load events the Loader gives for an image: byte `i` to cell `i`, in file order (R243). -/
def loadEvents (a : Nat) : List Byte → List HostEvent
  | [] => []
  | v :: img => .load (BitVec.ofNat 8 a) v :: loadEvents (a + 1) img

/-- A sequence of inward events. -/
def State.hostEvents (s : State) (es : List HostEvent) : State := es.foldl State.hostEvent s

/-- The launch state of an image (R247): reset, load, start. An image of more than 256 bytes is refused by the Loader and
no run starts (R244). -/
def launch (img : List Byte) : Option State :=
  if img.length ≤ memSize then
    some (State.reset.hostEvents (.reset :: loadEvents 0 img ++ [.start]))
  else none

/-- Outward event 4 of R39: the values a step handed to the Reporter. -/
def emitted (before after : State) : List Byte := after.out.drop before.out.length

/-- Outward event 5 of R39: the terminal status with its record, readable once there is one. -/
def State.terminalStatus (s : State) : Option Status :=
  match s.status with
  | .idle => none
  | .run => none
  | .halt => some .halt
  | .fault record => some (.fault record)

end Sys2Proof.Machine
end

