-- ==== Sys2Proof/Machine/Run.lean ====
section
/-! DEFINITION. Runs under a fuel bound (40_loop_and_data.md R116, R122; 92_eei_decisions.md D26): the hardware has no step
limit, so fuel is the model's own, and running out of it is no answer. -/
namespace Sys2Proof.Machine

/-- What a bounded look at a run answers: the state in which the run ended, in HALT or FAULT (R116), or no answer. Fuel
exhausted is no answer and never a halt (R122). -/
inductive RunAnswer
  | ended (s : State)
  | noAnswer
  deriving DecidableEq, Repr

/-- The answer a state gives by its status alone: a terminal state is the end of its run (R116); a state in RUN has a step
yet to take, and one in IDLE has begun no run (log 13). -/
def State.runAnswer (s : State) : RunAnswer :=
  match s.status with
  | .idle => .noAnswer
  | .run => .noAnswer
  | .halt => .ended s
  | .fault _ => .ended s

/-- The run from a state, followed for at most `fuel` steps (R116, R122): each unit of fuel takes one step while there is
one, and the first state with a terminal status is the end. -/
def runFor (c : Config) : Nat → State → RunAnswer
  | 0, s => s.runAnswer
  | fuel + 1, s =>
    match stepWith c s with
    | .next t => runFor c fuel t
    | .fault _ => s.runAnswer
    | .refused _ => s.runAnswer

/-- The run of a program image from its launch state (70_reset_and_hazards.md R247); none if the image does not launch
(R244, R246). -/
def runImage (c : Config) (fuel : Nat) (img : List Byte) : Option RunAnswer :=
  (launch img).map (runFor c fuel)

end Sys2Proof.Machine
end

