-- ==== Sys2Proof/Safety.lean ====
section
/-! DEFINITION. The terms the claims are stated in: runs and their ends (40_loop_and_data.md R116), what a safe run is
(60_exceptions.md R216), the invariant of the machine, and straight-line sequences of stack instructions
(42_stack_subroutine.md R166). -/
namespace Sys2Proof.Machine

/-- The run has ended in HALT: it has completed (R116, R216). -/
def State.completed (s : State) : Prop := s.status = .halt

/-- The run has ended in FAULT: it has gone wrong (R116, R216). -/
def State.wentWrong (s : State) : Prop := ∃ record, s.status = .fault record

/-- The states a run reaches from `s` (R116), under the opcode map of `c`. -/
inductive Reaches (c : Config) (s : State) : State → Prop
  | here : Reaches c s s
  | next (t u : State) : Reaches c s t → stepWith c t = .next u → Reaches c s u

/-- A state that some program reaches from its launch state (R247) on the machine with the opcode map of `c`. -/
def Reachable (c : Config) (s : State) : Prop :=
  ∃ img start, launch img = some start ∧ Reaches c start s

/-- A safe run: no state it reaches has gone wrong (R211, R216). -/
def SafeFrom (c : Config) (s : State) : Prop := ∀ t, Reaches c s t → ¬ t.wentWrong

/-- `s` after a fault with this cause was taken in it: the status becomes FAULT with the record of R203 and nothing else
changes (R204). -/
def State.faulted (s : State) (cause : FaultCause) : State :=
  { s with status := .fault { cause := cause, opcode := s.ir, pc := s.pc } }

/-- `s` with the opcode byte at `pc` in `ir`, as every step begins (R32). -/
def State.fetched (s : State) : State := { s with ir := s.mem.read s.pc.toNat }

/-- The "reads" column of 10_state.md R23: whether the instruction reads register `r` when the flags register holds `fl`
(JEQ and JNE read their register only if taken). -/
def readsReg (fl : Byte) (r : Reg) : Instr → Prop
  | .hlt => False
  | .ldi _ _ => False
  | .prn v => v.toNat = r.val
  | .add v w => v.toNat = r.val ∨ w.toNat = r.val
  | .mul v w => v.toNat = r.val ∨ w.toNat = r.val
  | .cmp v w => v.toNat = r.val ∨ w.toNat = r.val
  | .push v => r = spIndex ∨ v.toNat = r.val
  | .pop _ => r = spIndex
  | .call v => r = spIndex ∨ v.toNat = r.val
  | .ret => r = spIndex
  | .jmp v => v.toNat = r.val
  | .jeq v => equalBit fl = true ∧ v.toNat = r.val
  | .jne v => equalBit fl = false ∧ v.toNat = r.val

/-- The "writes" column of 10_state.md R23: whether the instruction writes register `r`. -/
def writesReg (r : Reg) : Instr → Prop
  | .hlt => False
  | .ldi v _ => v.toNat = r.val
  | .prn _ => False
  | .add v _ => v.toNat = r.val
  | .mul v _ => v.toNat = r.val
  | .cmp _ _ => False
  | .push _ => r = spIndex
  | .pop v => v.toNat = r.val ∨ r = spIndex
  | .call _ => r = spIndex
  | .ret => r = spIndex
  | .jmp _ => False
  | .jeq _ => False
  | .jne _ => False

/-- The values `fl` can hold (R31). -/
def legalFlags : List Byte := [0x00, 0x01, 0x02, 0x04]

/-- What the cause of a recorded fault says of the record (R202): an unrecognised opcode, an address from 256 to 258, an
index above 7; AluMisuseFault is never recorded (R208). -/
def FaultCause.sound (c : Config) (opcode : Byte) : FaultCause → Prop
  | .decode => ∀ m, c.opcode m ≠ opcode
  | .address addr => 256 ≤ addr ∧ addr ≤ 258 ∧ ∃ m, c.opcode m = opcode
  | .registerIndex index => 8 ≤ index.toNat ∧ ∃ m, c.opcode m = opcode
  | .aluMisuse => False

/-- The invariant of the machine: memory is in canonical form, `fl` holds a legal value (R31), and a recorded fault names
the opcode in `ir` and the address still in `pc`, with a cause that fits (R202, R203). -/
structure State.Inv (c : Config) (s : State) : Prop where
  mem_wf : s.mem.wf
  flags_legal : s.fl ∈ legalFlags
  fault_sound : ∀ record, s.status = .fault record →
    record.opcode = s.ir ∧ record.pc = s.pc ∧ record.cause.sound c record.opcode

/-- Execute instructions one after another, stopping at the first that gives no next state. -/
def execAll : List Instr → State → Host.Outcome State Fault Refusal
  | [], s => .next s
  | i :: is, s =>
    match exec i s with
    | .next t => execAll is t
    | .fault r => .fault r
    | .refused r => .refused r

/-- A properly nested sequence of pushes and pops that names R7 in no pop (R166): nothing, two such sequences
one after another, or one between a push and a pop. -/
inductive Nested : List Instr → Prop
  | nil : Nested []
  | append (is js : List Instr) : Nested is → Nested js → Nested (is ++ js)
  | around (r q : Byte) (is : List Instr) : r.toNat < 8 → q.toNat < 7 → Nested is →
      Nested (.push r :: is ++ [.pop q])

end Sys2Proof.Machine
end

