-- ==== Sys2Proof/Certificates/Slice0/Obligations.lean ====
section
/-! DEFINITION. The statements for the provers. Each docstring names the rule of spec/ it formalises; where a clause rests on
one of the spec's own decisions (92_eei_decisions.md) or on this model's own choice (notes/assumptions), it says so. Where
a statement is about every machine of the family it quantifies over the configuration `c`, the opcode map `OPC`; `step` is
`stepWith defaultConfig`. -/

open Sys2Proof Sys2Proof.Machine

/-! ### Encoding -/

/-- One word of each family, written out from 30_encoding.md R81 to R85, decodes to the instruction it stands for. The
opcode bytes are the default of `OPC`, which the spec marks as general knowledge (R85; log 1). -/
def Obligations.WordsOfTheSpecDecode : Prop :=
  decodeTableWord 8 0b00000001 = some .hlt ∧
  decodeTableWord 24 0b11111111_00000011_10000010 = some (.ldi 3 255) ∧
  decodeTableWord 16 0b00000111_01000111 = some (.prn 7) ∧
  decodeTableWord 24 0b00000001_00000000_10100000 = some (.add 0 1) ∧
  decodeTableWord 24 0b00000101_00000010_10100010 = some (.mul 2 5) ∧
  decodeTableWord 24 0b00000100_00000110_10100111 = some (.cmp 6 4) ∧
  decodeTableWord 16 0b00000010_01000101 = some (.push 2) ∧
  decodeTableWord 16 0b00000001_01000110 = some (.pop 1) ∧
  decodeTableWord 16 0b00000001_01010000 = some (.call 1) ∧
  decodeTableWord 8 0b00010001 = some .ret ∧
  decodeTableWord 16 0b00000011_01010100 = some (.jmp 3) ∧
  decodeTableWord 16 0b00000010_01010101 = some (.jeq 2) ∧
  decodeTableWord 16 0b00000011_01010110 = some (.jne 3) ∧
  decodeTableWord 8 0b00000000 = none ∧
  decodeTableWord 24 0b00000001_00000000_10100001 = none

/-- Decoding the encoding of any instruction, whatever its operand bytes and whatever follows it, gives it back and leaves
what follows, under every injective opcode map (R80 to R85, R92). Operand bytes above 7 are included. -/
def Obligations.DecodeInvertsEncode : Prop :=
  ∀ (c : Config) (i : Instr) (rest : List Byte), decode c (encode c i ++ rest) = .ok i rest

/-- Bytes that decode are the encoding of what they decode to, followed by the rest: each instruction has one encoding
(R80 to R87). -/
def Obligations.DecodedBytesAreTheEncoding : Prop :=
  ∀ (c : Config) (bytes rest : List Byte) (i : Instr), decode c bytes = .ok i rest → bytes = encode c i ++ rest

/-- Under every opcode map exactly 243 of the 256 byte values are unrecognised opcodes (R88; injectivity of `OPC` is the
spec's decision D1). -/
def Obligations.UnrecognisedOpcodesAre243 : Prop :=
  ∀ c : Config, ((List.range 256).filter fun n => (lookupOpcode c (BitVec.ofNat 8 n)).isNone).length = 243

/-! ### The instructions, each its whole rule: encoding, faults, effect and frame

In each, `{ s with f := t.f, … }` on the right of `t =` says that every field not listed is unchanged. The fault clauses are
those each rule itself lists; the policy behind them is the spec's decisions D3 and D5 (R113, R114). -/

/-- HLT (40_loop_and_data.md R117): `status <- HALT` and nothing else. That `pc` does not advance is the spec's decision
D4. -/
def Obligations.HltStopsTheLoop : Prop :=
  ∀ s : State, exec .hlt s = .next { s with status := .halt }

/-- LDI r, imm8 (R118): `x[r] <- b; pc <- p + 3`; AddressFault if `p >= 253`, RegisterIndexFault if `a > 7`; the immediate
is never checked. The byte 82 is the default of `OPC` (log 1). -/
def Obligations.LdiLoadsTheImmediate : Prop :=
  ∀ (s : State) (v imm : Byte),
    (∀ c, encode c (.ldi v imm) = [c.opcode .ldi, v, imm]) ∧ defaultConfig.opcode .ldi = 0x82 ∧
    (253 ≤ s.pc.toNat → exec (.ldi v imm) s = .next (s.faulted (.address (s.pc.toNat + 3)))) ∧
    (s.pc.toNat < 253 → 8 ≤ v.toNat → exec (.ldi v imm) s = .next (s.faulted (.registerIndex v))) ∧
    (∀ r : Reg, s.pc.toNat < 253 → v.toNat = r.val →
      ∃ t, exec (.ldi v imm) s = .next t ∧ t.x.get r = imm ∧ (∀ q, q ≠ r → t.x.get q = s.x.get q) ∧
        t.pc.toNat = s.pc.toNat + 3 ∧ t = { s with x := t.x, pc := t.pc })

/-- PRN r (R120): `emit(x[r]); pc <- p + 2`; AddressFault if `p >= 254`, RegisterIndexFault if `a > 7`, nothing emitted then.
The byte 47 is the default of `OPC` (log 1). -/
def Obligations.PrnEmitsTheRegister : Prop :=
  ∀ (s : State) (v : Byte),
    (∀ c, encode c (.prn v) = [c.opcode .prn, v]) ∧ defaultConfig.opcode .prn = 0x47 ∧
    (254 ≤ s.pc.toNat → exec (.prn v) s = .next (s.faulted (.address (s.pc.toNat + 2)))) ∧
    (s.pc.toNat < 254 → 8 ≤ v.toNat → exec (.prn v) s = .next (s.faulted (.registerIndex v))) ∧
    (∀ r : Reg, s.pc.toNat < 254 → v.toNat = r.val →
      ∃ t, exec (.prn v) s = .next t ∧ t.out = s.out ++ [s.x.get r] ∧
        t.pc.toNat = s.pc.toNat + 2 ∧ t = { s with out := t.out, pc := t.pc })

/-- ADD ra, rb (41_alu.md R142): `x[ra] <- (u + v) mod 256; pc <- p + 3`, `fl` unchanged; AddressFault if `p >= 253`,
RegisterIndexFault if `a > 7`, else if `b > 7`. The byte A0 is the default of `OPC` (log 1). -/
def Obligations.AddAddsModulo256 : Prop :=
  ∀ (s : State) (v w : Byte),
    (∀ c, encode c (.add v w) = [c.opcode .add, v, w]) ∧ defaultConfig.opcode .add = 0xA0 ∧
    (253 ≤ s.pc.toNat → exec (.add v w) s = .next (s.faulted (.address (s.pc.toNat + 3)))) ∧
    (s.pc.toNat < 253 → 8 ≤ v.toNat → exec (.add v w) s = .next (s.faulted (.registerIndex v))) ∧
    (s.pc.toNat < 253 → v.toNat < 8 → 8 ≤ w.toNat →
      exec (.add v w) s = .next (s.faulted (.registerIndex w))) ∧
    (∀ a b : Reg, s.pc.toNat < 253 → v.toNat = a.val → w.toNat = b.val →
      ∃ t, exec (.add v w) s = .next t ∧
        (t.x.get a).toNat = ((s.x.get a).toNat + (s.x.get b).toNat) % 256 ∧
        (∀ q, q ≠ a → t.x.get q = s.x.get q) ∧
        t.pc.toNat = s.pc.toNat + 3 ∧ t = { s with x := t.x, pc := t.pc })

/-- MUL ra, rb (R143): `x[ra] <- (u * v) mod 256; pc <- p + 3`, `fl` unchanged; faults as ADD. The byte A2 is the default of
`OPC` (log 1). -/
def Obligations.MulMultipliesModulo256 : Prop :=
  ∀ (s : State) (v w : Byte),
    (∀ c, encode c (.mul v w) = [c.opcode .mul, v, w]) ∧ defaultConfig.opcode .mul = 0xA2 ∧
    (253 ≤ s.pc.toNat → exec (.mul v w) s = .next (s.faulted (.address (s.pc.toNat + 3)))) ∧
    (s.pc.toNat < 253 → 8 ≤ v.toNat → exec (.mul v w) s = .next (s.faulted (.registerIndex v))) ∧
    (s.pc.toNat < 253 → v.toNat < 8 → 8 ≤ w.toNat →
      exec (.mul v w) s = .next (s.faulted (.registerIndex w))) ∧
    (∀ a b : Reg, s.pc.toNat < 253 → v.toNat = a.val → w.toNat = b.val →
      ∃ t, exec (.mul v w) s = .next t ∧
        (t.x.get a).toNat = (s.x.get a).toNat * (s.x.get b).toNat % 256 ∧
        (∀ q, q ≠ a → t.x.get q = s.x.get q) ∧
        t.pc.toNat = s.pc.toNat + 3 ∧ t = { s with x := t.x, pc := t.pc })

/-- CMP ra, rb (R144): all of `fl` becomes 1, 2 or 4 as the unsigned operands are equal, greater or less; no register is
written; `pc <- p + 3`; faults as ADD. The byte A7 is the default of `OPC` (log 1). -/
def Obligations.CmpSetsExactlyOneFlag : Prop :=
  ∀ (s : State) (v w : Byte),
    (∀ c, encode c (.cmp v w) = [c.opcode .cmp, v, w]) ∧ defaultConfig.opcode .cmp = 0xA7 ∧
    (253 ≤ s.pc.toNat → exec (.cmp v w) s = .next (s.faulted (.address (s.pc.toNat + 3)))) ∧
    (s.pc.toNat < 253 → 8 ≤ v.toNat → exec (.cmp v w) s = .next (s.faulted (.registerIndex v))) ∧
    (s.pc.toNat < 253 → v.toNat < 8 → 8 ≤ w.toNat →
      exec (.cmp v w) s = .next (s.faulted (.registerIndex w))) ∧
    (∀ a b : Reg, s.pc.toNat < 253 → v.toNat = a.val → w.toNat = b.val →
      ∃ t, exec (.cmp v w) s = .next t ∧
        ((s.x.get a).toNat = (s.x.get b).toNat → t.fl = 0b00000001) ∧
        ((s.x.get b).toNat < (s.x.get a).toNat → t.fl = 0b00000010) ∧
        ((s.x.get a).toNat < (s.x.get b).toNat → t.fl = 0b00000100) ∧
        t.pc.toNat = s.pc.toNat + 3 ∧ t = { s with fl := t.fl, pc := t.pc })

/-- PUSH r (42_stack_subroutine.md R162): `x[7] <- (x[7] - 1) mod 256`, then the cell `x[7]` gets `x[r]`, both read after the
decrement, then `pc <- p + 2`; AddressFault if `p >= 254`, RegisterIndexFault if `a > 7`. What PUSH R7 stores is the
spec's decision D9 (R168). The byte 45 is the default of `OPC` (log 1). -/
def Obligations.PushStoresBelowTheStack : Prop :=
  ∀ (s : State) (v : Byte),
    (∀ c, encode c (.push v) = [c.opcode .push, v]) ∧ defaultConfig.opcode .push = 0x45 ∧
    (254 ≤ s.pc.toNat → exec (.push v) s = .next (s.faulted (.address (s.pc.toNat + 2)))) ∧
    (s.pc.toNat < 254 → 8 ≤ v.toNat → exec (.push v) s = .next (s.faulted (.registerIndex v))) ∧
    (∀ r : Reg, s.pc.toNat < 254 → v.toNat = r.val →
      ∃ t, exec (.push v) s = .next t ∧
        (t.x.get spIndex).toNat = ((s.x.get spIndex).toNat + 255) % 256 ∧
        (∀ q, q ≠ spIndex → t.x.get q = s.x.get q) ∧
        t.mem.read (t.x.get spIndex).toNat = t.x.get r ∧
        (∀ n, n ≠ (t.x.get spIndex).toNat → t.mem.read n = s.mem.read n) ∧
        t.pc.toNat = s.pc.toNat + 2 ∧ t = { s with x := t.x, mem := t.mem, pc := t.pc })

/-- POP r (R163): `x[r]` gets the cell `x[7]`, then `x[7] <- (x[7] + 1) mod 256`, which for `r = 7` increments the value just
loaded (R168, the spec's decision D9), then `pc <- p + 2`; memory keeps its bytes; AddressFault if `p >= 254`,
RegisterIndexFault if `a > 7`. The byte 46 is the default of `OPC` (log 1). -/
def Obligations.PopLoadsFromTheStack : Prop :=
  ∀ (s : State) (v : Byte),
    (∀ c, encode c (.pop v) = [c.opcode .pop, v]) ∧ defaultConfig.opcode .pop = 0x46 ∧
    (254 ≤ s.pc.toNat → exec (.pop v) s = .next (s.faulted (.address (s.pc.toNat + 2)))) ∧
    (s.pc.toNat < 254 → 8 ≤ v.toNat → exec (.pop v) s = .next (s.faulted (.registerIndex v))) ∧
    (∀ r : Reg, s.pc.toNat < 254 → v.toNat = r.val →
      ∃ t, exec (.pop v) s = .next t ∧
        (r ≠ spIndex → t.x.get r = s.mem.read (s.x.get spIndex).toNat ∧
          (t.x.get spIndex).toNat = ((s.x.get spIndex).toNat + 1) % 256) ∧
        (r = spIndex →
          (t.x.get spIndex).toNat = ((s.mem.read (s.x.get spIndex).toNat).toNat + 1) % 256) ∧
        (∀ q, q ≠ r → q ≠ spIndex → t.x.get q = s.x.get q) ∧
        t.pc.toNat = s.pc.toNat + 2 ∧ t = { s with x := t.x, pc := t.pc })

/-- CALL r (R164): `x[7] <- (x[7] - 1) mod 256`, the cell `x[7]` gets the return address `p + 2`, `pc <- x[r]` read after the
decrement (R168); AddressFault if `p >= 254` (the spec's decision D10) and then nothing is pushed, RegisterIndexFault if
`a > 7`. The byte 50 is the default of `OPC` (log 1). -/
def Obligations.CallPushesTheReturnAddress : Prop :=
  ∀ (s : State) (v : Byte),
    (∀ c, encode c (.call v) = [c.opcode .call, v]) ∧ defaultConfig.opcode .call = 0x50 ∧
    (254 ≤ s.pc.toNat → exec (.call v) s = .next (s.faulted (.address (s.pc.toNat + 2)))) ∧
    (s.pc.toNat < 254 → 8 ≤ v.toNat → exec (.call v) s = .next (s.faulted (.registerIndex v))) ∧
    (∀ r : Reg, s.pc.toNat < 254 → v.toNat = r.val →
      ∃ t, exec (.call v) s = .next t ∧
        (t.x.get spIndex).toNat = ((s.x.get spIndex).toNat + 255) % 256 ∧
        (∀ q, q ≠ spIndex → t.x.get q = s.x.get q) ∧
        (t.mem.read (t.x.get spIndex).toNat).toNat = s.pc.toNat + 2 ∧
        (∀ n, n ≠ (t.x.get spIndex).toNat → t.mem.read n = s.mem.read n) ∧
        t.pc = t.x.get r ∧ t = { s with x := t.x, mem := t.mem, pc := t.pc })

/-- RET (R165): `pc` gets the cell `x[7]`, then `x[7] <- (x[7] + 1) mod 256`; no flags, no faults. The byte 11 is the default
of `OPC` (log 1). -/
def Obligations.RetPopsIntoPc : Prop :=
  ∀ s : State,
    (∀ c, encode c .ret = [c.opcode .ret]) ∧ defaultConfig.opcode .ret = 0x11 ∧
    ∃ t, exec .ret s = .next t ∧ t.pc = s.mem.read (s.x.get spIndex).toNat ∧
      (t.x.get spIndex).toNat = ((s.x.get spIndex).toNat + 1) % 256 ∧
      (∀ q, q ≠ spIndex → t.x.get q = s.x.get q) ∧ t = { s with x := t.x, pc := t.pc }

/-- JMP r (43_branch.md R181): `pc <- x[r]`; AddressFault only if `p = 255`, RegisterIndexFault if `a > 7`. The byte 54 is the
default of `OPC` (log 1). -/
def Obligations.JmpGoesToTheRegister : Prop :=
  ∀ (s : State) (v : Byte),
    (∀ c, encode c (.jmp v) = [c.opcode .jmp, v]) ∧ defaultConfig.opcode .jmp = 0x54 ∧
    (s.pc.toNat = 255 → exec (.jmp v) s = .next (s.faulted (.address 256))) ∧
    (s.pc.toNat < 255 → 8 ≤ v.toNat → exec (.jmp v) s = .next (s.faulted (.registerIndex v))) ∧
    (∀ r : Reg, s.pc.toNat < 255 → v.toNat = r.val → exec (.jmp v) s = .next { s with pc := s.x.get r })

/-- JEQ r (R182): `pc <- x[r]` if bit 0 of `fl` is 1, else `pc <- p + 2`; AddressFault if taken and `p = 255`, or not taken
and `p >= 254`; RegisterIndexFault if `a > 7`, taken or not. The byte 55 is the default of `OPC` (log 1). -/
def Obligations.JeqJumpsWhenEqual : Prop :=
  ∀ (s : State) (v : Byte),
    (∀ c, encode c (.jeq v) = [c.opcode .jeq, v]) ∧ defaultConfig.opcode .jeq = 0x55 ∧
    (s.fl.getLsbD 0 = true → s.pc.toNat = 255 → exec (.jeq v) s = .next (s.faulted (.address 256))) ∧
    (s.fl.getLsbD 0 = false → 254 ≤ s.pc.toNat →
      exec (.jeq v) s = .next (s.faulted (.address (s.pc.toNat + 2)))) ∧
    (s.fl.getLsbD 0 = true → s.pc.toNat < 255 → 8 ≤ v.toNat →
      exec (.jeq v) s = .next (s.faulted (.registerIndex v))) ∧
    (s.fl.getLsbD 0 = false → s.pc.toNat < 254 → 8 ≤ v.toNat →
      exec (.jeq v) s = .next (s.faulted (.registerIndex v))) ∧
    (∀ r : Reg, s.fl.getLsbD 0 = true → s.pc.toNat < 255 → v.toNat = r.val →
      exec (.jeq v) s = .next { s with pc := s.x.get r }) ∧
    (∀ r : Reg, s.fl.getLsbD 0 = false → s.pc.toNat < 254 → v.toNat = r.val →
      ∃ t, exec (.jeq v) s = .next t ∧ t.pc.toNat = s.pc.toNat + 2 ∧ t = { s with pc := t.pc })

/-- JNE r (R183): `pc <- x[r]` if bit 0 of `fl` is 0, else `pc <- p + 2`; faults as JEQ with the condition turned round. The
byte 56 is the default of `OPC` (log 1). -/
def Obligations.JneJumpsWhenNotEqual : Prop :=
  ∀ (s : State) (v : Byte),
    (∀ c, encode c (.jne v) = [c.opcode .jne, v]) ∧ defaultConfig.opcode .jne = 0x56 ∧
    (s.fl.getLsbD 0 = false → s.pc.toNat = 255 → exec (.jne v) s = .next (s.faulted (.address 256))) ∧
    (s.fl.getLsbD 0 = true → 254 ≤ s.pc.toNat →
      exec (.jne v) s = .next (s.faulted (.address (s.pc.toNat + 2)))) ∧
    (s.fl.getLsbD 0 = false → s.pc.toNat < 255 → 8 ≤ v.toNat →
      exec (.jne v) s = .next (s.faulted (.registerIndex v))) ∧
    (s.fl.getLsbD 0 = true → s.pc.toNat < 254 → 8 ≤ v.toNat →
      exec (.jne v) s = .next (s.faulted (.registerIndex v))) ∧
    (∀ r : Reg, s.fl.getLsbD 0 = false → s.pc.toNat < 255 → v.toNat = r.val →
      exec (.jne v) s = .next { s with pc := s.x.get r }) ∧
    (∀ r : Reg, s.fl.getLsbD 0 = true → s.pc.toNat < 254 → v.toNat = r.val →
      ∃ t, exec (.jne v) s = .next t ∧ t.pc.toNat = s.pc.toNat + 2 ∧ t = { s with pc := t.pc })

/-! ### Frames, whatever next state an instruction gives, a fault's included -/

/-- LDI, ADD and MUL change no register but their destination, no flag, no byte of memory, not `ir` and not the log. -/
def Obligations.RegisterResultFrame : Prop :=
  ∀ (i : Instr) (v w : Byte) (s t : State), i = .ldi v w ∨ i = .add v w ∨ i = .mul v w → exec i s = .next t →
    (∀ q : Reg, q.val ≠ v.toNat → t.x.get q = s.x.get q) ∧ t.fl = s.fl ∧ t.ir = s.ir ∧ t.out = s.out ∧
    ∀ n, t.mem.read n = s.mem.read n

/-- HLT, PRN, CMP, JMP, JEQ and JNE change no register and no byte of memory and not `ir`; only CMP may change `fl`, only PRN
the log. -/
def Obligations.NoRegisterResultFrame : Prop :=
  ∀ (i : Instr) (v w : Byte) (s t : State),
    i = .hlt ∨ i = .prn v ∨ i = .cmp v w ∨ i = .jmp v ∨ i = .jeq v ∨ i = .jne v → exec i s = .next t →
    (∀ q : Reg, t.x.get q = s.x.get q) ∧ t.ir = s.ir ∧ (i ≠ .cmp v w → t.fl = s.fl) ∧
    (i ≠ .prn v → t.out = s.out) ∧ ∀ n, t.mem.read n = s.mem.read n

/-- PUSH and CALL change no register but `x[7]`, no flag, not `ir`, not the log, and no byte of memory but the one in the
cell that the lowered stack pointer names, computed as the meanings compute it. -/
def Obligations.StackStoreFrame : Prop :=
  ∀ (i : Instr) (v : Byte) (s t : State), i = .push v ∨ i = .call v → exec i s = .next t →
    (∀ q : Reg, q ≠ spIndex → t.x.get q = s.x.get q) ∧ t.fl = s.fl ∧ t.ir = s.ir ∧ t.out = s.out ∧
    ∀ n, n ≠ s.lowerSp.sp.toNat → t.mem.read n = s.mem.read n

/-- POP and RET change no register but `x[7]` and, for POP, its destination; no flag, no byte of memory, not `ir` and not the
log. -/
def Obligations.StackLoadFrame : Prop :=
  ∀ (i : Instr) (v : Byte) (s t : State), i = .pop v ∨ i = .ret → exec i s = .next t →
    (∀ q : Reg, q ≠ spIndex → (i = .pop v → q.val ≠ v.toNat) → t.x.get q = s.x.get q) ∧ t.fl = s.fl ∧
    t.ir = s.ir ∧ t.out = s.out ∧ ∀ n, t.mem.read n = s.mem.read n

/-- 10_state.md R23: an instruction writes no register but those of its "writes" column, and depends on no register but
those of its "reads" column: from a register file `y` that agrees on the registers read it does the same to everything
else and leaves the same values in the registers it writes. -/
def Obligations.RegistersReadAndWrittenAsTabled : Prop :=
  ∀ (i : Instr) (s t : State) (y : RegFile), exec i s = .next t →
    (∀ q, ¬ writesReg q i → t.x.get q = s.x.get q) ∧
    ((∀ q, readsReg s.fl q i → y.get q = s.x.get q) →
      ∃ u, exec i { s with x := y } = .next u ∧ u = { t with x := u.x } ∧
        (∀ q, ¬ writesReg q i → u.x.get q = y.get q) ∧
        (¬ t.wentWrong → ∀ q, writesReg q i → u.x.get q = t.x.get q))

/-! ### The step -/

/-- When the bytes at `pc` decode to an instruction, the step of a running core is that instruction executed with the opcode
byte in `ir` (40_loop_and_data.md R110, R111), for the fixed step and under every opcode map. -/
def Obligations.StepRunsTheDecodedInstruction : Prop :=
  (∀ (s : State) (i : Instr) (rest : List Byte), s.status = .run →
    decode defaultConfig s.fetchBytes = .ok i rest → step s = exec i { s with ir := s.mem.read s.pc.toNat }) ∧
  (∀ (c : Config) (s : State) (i : Instr) (rest : List Byte), s.status = .run →
    decode c s.fetchBytes = .ok i rest → stepWith c s = exec i { s with ir := s.mem.read s.pc.toNat })

/-- R112: the byte in `ir` is compared with the thirteen opcode values and nothing else is looked at. A match selects the
instruction, its operand count and effect: what the step does is what executing the row's instruction on the operand
bytes does, when they exist. No match is a DecodeFault with the opcode value and `pc`, and changes only `ir` and
`status`. -/
def Obligations.OpcodeByteSelectsOrFaults : Prop :=
  ∀ (c : Config) (s : State), s.status = .run →
    (∀ m : Mnemonic, s.mem.read s.pc.toNat = c.opcode m → s.pc.toNat + m.operandCount ≤ 255 →
      stepWith c s =
        exec (m.withOperands (s.mem.read (s.pc.toNat + 1)) (s.mem.read (s.pc.toNat + 2))) s.fetched) ∧
    ((∀ m : Mnemonic, s.mem.read s.pc.toNat ≠ c.opcode m) →
      stepWith c s = .next
        { s with ir := s.mem.read s.pc.toNat,
                 status := .fault { cause := .decode, opcode := s.mem.read s.pc.toNat, pc := s.pc } })

/-- The fault checks of a step and their order (R110, R113, R114; 60_exceptions.md R210), and that once they have passed the
instruction cannot fault (R115). The policy and the order are the spec's decisions D3, D5, D7 and D10. -/
def Obligations.StepFaultsInPriorityOrder : Prop :=
  ∀ (c : Config) (s : State), s.status = .run →
    ((∀ m : Mnemonic, c.opcode m ≠ s.mem.read s.pc.toNat) → stepWith c s = .next (s.fetched.faulted .decode)) ∧
    ∀ m : Mnemonic, c.opcode m = s.mem.read s.pc.toNat →
      (256 ≤ need m s → stepWith c s = .next (s.fetched.faulted (.address (need m s)))) ∧
      (need m s < 256 → m.format ≠ .z → 8 ≤ (s.mem.read (s.pc.toNat + 1)).toNat →
        stepWith c s = .next (s.fetched.faulted (.registerIndex (s.mem.read (s.pc.toNat + 1))))) ∧
      (need m s < 256 → m.format = .rr → (s.mem.read (s.pc.toNat + 1)).toNat < 8 →
        8 ≤ (s.mem.read (s.pc.toNat + 2)).toNat →
        stepWith c s = .next (s.fetched.faulted (.registerIndex (s.mem.read (s.pc.toNat + 2))))) ∧
      (need m s < 256 → (m.format ≠ .z → (s.mem.read (s.pc.toNat + 1)).toNat < 8) →
        (m.format = .rr → (s.mem.read (s.pc.toNat + 2)).toNat < 8) →
        ∃ t, stepWith c s = .next t ∧ ¬ t.wentWrong)

/-- Faults are precise (60_exceptions.md R203, R204; the spec's decision D6): a step that ends in FAULT has changed only `ir`
and `status`, and the record names the opcode byte and the address of the faulting instruction. -/
def Obligations.FaultsArePrecise : Prop :=
  ∀ (c : Config) (s t : State) (record : FaultRecord), stepWith c s = .next t → t.status = .fault record →
    t = { s with ir := s.mem.read s.pc.toNat, status := .fault record } ∧
    record.opcode = s.mem.read s.pc.toNat ∧ record.pc = s.pc

/-- A step is defined exactly in RUN (R110, R253); elsewhere the model answers the fault outcome that names the status, which
is the model's own choice (log 4). -/
def Obligations.StepIsDefinedExactlyInRun : Prop :=
  ∀ (c : Config) (s : State),
    ((∃ t, stepWith c s = .next t) ↔ s.status = .run) ∧
    (s.status = .idle → stepWith c s = .fault .notStarted) ∧
    (s.status = .halt → stepWith c s = .fault .halted) ∧
    (∀ record, s.status = .fault record → stepWith c s = .fault (.stopped record))

/-- The transitions a step makes (10_state.md R35): it is taken in RUN and leads to RUN, to HALT or to FAULT, to HALT exactly
when the opcode byte is HLT's. -/
def Obligations.StatusTransitionsOfAStep : Prop :=
  ∀ (c : Config) (s t : State), stepWith c s = .next t →
    s.status = .run ∧ (t.status = .run ∨ t.completed ∨ t.wentWrong) ∧
    (t.completed ↔ s.mem.read s.pc.toNat = c.opcode .hlt)

/-- From FAULT there is no step and no way out but reset, which discards the whole state; HALT is the same
(60_exceptions.md R211, R217). That load and start change nothing there is 20_memory.md R64 and 10_state.md R35 by the
spec's decision D22. -/
def Obligations.OnlyResetLeavesATerminalStatus : Prop :=
  ∀ (c : Config) (s : State), s.wentWrong ∨ s.completed →
    (∀ t, stepWith c s ≠ .next t) ∧ s.hostEvent .reset = State.reset ∧ s.hostEvent .start = s ∧
    ∀ a v, s.hostEvent (.load a v) = s

/-- The ALU given a tag outside ADD, MUL and CMP takes AluMisuseFault, and no step ever does (41_alu.md R141;
60_exceptions.md R208, the spec's decision D21; the tag type is the model's, log 9). -/
def Obligations.AluMisuseIsUnreachable : Prop :=
  (∀ (m : Mnemonic) (a b : Reg) (s : State), runAlu .unsupported m a b s = .next (s.faulted .aluMisuse)) ∧
  (∀ (c : Config) (s t : State) (record : FaultRecord), stepWith c s = .next t → t.status = .fault record →
    record.cause ≠ .aluMisuse)

/-! ### Whole-machine rules -/

/-- 10_state.md R30: only CMP changes `fl`, and a CMP that completes leaves exactly one of the three bits set; only JEQ and
JNE depend on `fl`, and on bit 0 only; CMP does not depend on the old value. -/
def Obligations.FlagsWrittenByCmpAndReadThroughEqual : Prop :=
  ∀ (i : Instr) (s t : State) (f : Byte), s.status = .run → exec i s = .next t →
    (i.mnemonic ≠ .cmp → t.fl = s.fl) ∧
    (i.mnemonic = .cmp → ¬ t.wentWrong →
      (t.fl = 0b00000001 ∨ t.fl = 0b00000010 ∨ t.fl = 0b00000100) ∧ exec i { s with fl := f } = .next t) ∧
    (i.mnemonic ≠ .cmp → i.mnemonic ≠ .jeq → i.mnemonic ≠ .jne →
      exec i { s with fl := f } = .next { t with fl := f }) ∧
    (i.mnemonic = .jeq ∨ i.mnemonic = .jne → f.getLsbD 0 = s.fl.getLsbD 0 →
      exec i { s with fl := f } = .next { t with fl := f })

/-- R31: `fl` is 0 after reset; the values it takes in the runs of programs are exactly 0, 1, 2 and 4; with `fl` = 0 JNE is
taken and JEQ is not; and a CMP leaves it nonzero, which no later step undoes. -/
def Obligations.ReachableFlagValues : Prop :=
  State.reset.fl = 0 ∧
  (∀ (c : Config) (f : Byte), (∃ s, Reachable c s ∧ s.fl = f) ↔ f = 0x00 ∨ f = 0x01 ∨ f = 0x02 ∨ f = 0x04) ∧
  (∀ (s : State) (v : Byte) (r : Reg), s.fl = 0 → s.pc.toNat < 254 → v.toNat = r.val →
    exec (.jne v) s = .next { s with pc := s.x.get r } ∧
    ∃ t, exec (.jeq v) s = .next t ∧ t.pc.toNat = s.pc.toNat + 2) ∧
  (∀ (s t : State) (v w : Byte), s.status = .run → exec (.cmp v w) s = .next t → ¬ t.wentWrong → t.fl ≠ 0) ∧
  (∀ (c : Config) (s t : State), stepWith c s = .next t → s.fl ≠ 0 → t.fl ≠ 0)

/-- 10_state.md R26, the table of `pc` after each instruction that completes; a fault leaves `pc` unchanged. The row of HLT is
the spec's decision D4, and the register CALL reads is read after the decrement (R168, D9). -/
def Obligations.PcAfterEachInstruction : Prop :=
  ∀ (i : Instr) (s t : State), s.status = .run → exec i s = .next t →
    (t.wentWrong → t.pc = s.pc) ∧
    (¬ t.wentWrong →
      match i with
      | .hlt => t.pc = s.pc
      | .ldi _ _ => t.pc.toNat = s.pc.toNat + 3
      | .prn _ => t.pc.toNat = s.pc.toNat + 2
      | .mul _ _ => t.pc.toNat = s.pc.toNat + 3
      | .add _ _ => t.pc.toNat = s.pc.toNat + 3
      | .cmp _ _ => t.pc.toNat = s.pc.toNat + 3
      | .push _ => t.pc.toNat = s.pc.toNat + 2
      | .pop _ => t.pc.toNat = s.pc.toNat + 2
      | .call v => ∃ r : Reg, v.toNat = r.val ∧ t.pc = if r = spIndex then s.x.get r - 1 else s.x.get r
      | .ret => t.pc = s.mem.read (s.x.get spIndex).toNat
      | .jmp v => ∃ r : Reg, v.toNat = r.val ∧ t.pc = s.x.get r
      | .jeq v => if s.fl.getLsbD 0 then ∃ r : Reg, v.toNat = r.val ∧ t.pc = s.x.get r
          else t.pc.toNat = s.pc.toNat + 2
      | .jne v => if s.fl.getLsbD 0 then t.pc.toNat = s.pc.toNat + 2
          else ∃ r : Reg, v.toNat = r.val ∧ t.pc = s.x.get r)

/-- Only PUSH and CALL write memory during a run, and only the cell below the stack pointer (10_state.md R37; 20_memory.md
R50, R62). -/
def Obligations.OnlyPushAndCallWriteMemory : Prop :=
  ∀ (c : Config) (s t : State) (n : Nat), stepWith c s = .next t → t.mem.read n ≠ s.mem.read n →
    (s.mem.read s.pc.toNat = c.opcode .push ∨ s.mem.read s.pc.toNat = c.opcode .call) ∧
    n = (s.x.get spIndex - 1).toNat

/-- The output log (10_state.md R38; the spec's decision D16): a step leaves it or, for PRN, appends the value of the named
register; and nothing reads it: with another log already there, the step does the same. -/
def Obligations.OutputLogIsAppendedByPrnAndNeverRead : Prop :=
  ∀ (c : Config) (s t : State) (o : List Byte), stepWith c s = .next t →
    (t.out = s.out ∨ (s.mem.read s.pc.toNat = c.opcode .prn ∧
      ∃ r : Reg, (s.mem.read (s.pc.toNat + 1)).toNat = r.val ∧ t.out = s.out ++ [s.x.get r])) ∧
    stepWith c { s with out := o ++ s.out } = .next { t with out := o ++ t.out }

/-- What `ir` held before a step has no effect on it (10_state.md R32, R33). -/
def Obligations.OldInstructionRegisterIsNeverRead : Prop :=
  ∀ (c : Config) (s : State) (v : Byte), s.status = .run → stepWith c { s with ir := v } = stepWith c s

/-- A pushed byte is what the next fetch reads when it lands at the next `pc` (20_memory.md R61; the spec's decision D14). -/
def Obligations.PushedByteIsFetchedNext : Prop :=
  ∀ (c : Config) (s : State) (r : Reg), s.status = .run → s.mem.read s.pc.toNat = c.opcode .push →
    (s.mem.read (s.pc.toNat + 1)).toNat = r.val → s.pc.toNat < 254 →
    (s.x.get spIndex - 1).toNat = s.pc.toNat + 2 →
    ∃ t u, stepWith c s = .next t ∧ stepWith c t = .next u ∧
      u.ir = if r = spIndex then s.x.get r - 1 else s.x.get r

/-! ### Invariants -/

/-- The state after reset (10_state.md R41). The values of `ir`, `status` and `out` are the spec's decisions D12, D20 and
D16. -/
def Obligations.ResetValues : Prop :=
  (∀ r : Reg, r ≠ 7 → State.reset.x.get r = 0x00) ∧ State.reset.x.get 7 = 0xF4 ∧ State.reset.pc = 0x00 ∧
  State.reset.fl = 0x00 ∧ (∀ n, State.reset.mem.read n = 0x00) ∧ State.reset.ir = 0x00 ∧
  State.reset.status = .idle ∧ State.reset.out = []

/-- The invariant holds right after reset. -/
def Obligations.InvariantHoldsAtReset : Prop := ∀ c : Config, State.reset.Inv c

/-- The invariant holds in the launch state of every image (70_reset_and_hazards.md R247). -/
def Obligations.InvariantHoldsAtLaunch : Prop :=
  ∀ (c : Config) (img : List Byte) (s : State), launch img = some s → s.Inv c

/-- EVERY STEP KEEPS THE INVARIANT, from every state that meets it: memory stays in canonical form, `fl` stays one of 0, 1, 2
and 4, and a recorded fault names the opcode in `ir` and the address in `pc` with a cause that fits. Said of the fixed
step and of the step under every opcode map. -/
def Obligations.InvariantKeptByEveryStep : Prop :=
  (∀ s t : State, s.Inv defaultConfig → step s = .next t → t.Inv defaultConfig) ∧
  (∀ (c : Config) (s t : State), s.Inv c → stepWith c s = .next t → t.Inv c)

/-- Every host event keeps the invariant. -/
def Obligations.InvariantKeptByHostEvents : Prop :=
  ∀ (c : Config) (s : State) (e : HostEvent), s.Inv c → (s.hostEvent e).Inv c

/-- The canonical form of memory is canonical: two memories in that form that read alike are equal (log 8). -/
def Obligations.CanonicalMemoriesThatReadAlikeAreEqual : Prop :=
  ∀ m n : Memory, m.wf → n.wf → (∀ a, m.read a = n.read a) → m = n

/-! ### Host events and launch -/

/-- Load and start act in IDLE only (10_state.md R35, R39; 20_memory.md R64; the spec's decision D22); reset acts in any
status (70_reset_and_hazards.md R240). -/
def Obligations.LoadAndStartActInIdleOnly : Prop :=
  ∀ (s : State) (a v : Byte),
    s.hostEvent .reset = State.reset ∧
    (s.status ≠ .idle → s.hostEvent (.load a v) = s ∧ s.hostEvent .start = s) ∧
    (s.status = .idle → s.hostEvent .start = { s with status := .run } ∧
      s.hostEvent (.load a v) = { s with mem := (s.hostEvent (.load a v)).mem } ∧
      (s.hostEvent (.load a v)).mem.read a.toNat = v ∧
      ∀ n, n ≠ a.toNat → (s.hostEvent (.load a v)).mem.read n = s.mem.read n)

/-- The launch state of an image of at most 256 bytes (70_reset_and_hazards.md R247); a longer image does not launch (R244,
the spec's decision D17). -/
def Obligations.LaunchStateOfAnImage : Prop :=
  ∀ img : List Byte,
    (256 < img.length → launch img = none) ∧
    (img.length ≤ 256 → ∃ s, launch img = some s ∧ (∀ r : Reg, r ≠ 7 → s.x.get r = 0) ∧ s.x.get 7 = 0xF4 ∧
      s.pc = 0 ∧ s.fl = 0 ∧ s.ir = 0 ∧ s.out = [] ∧ s.status = .run ∧
      ∀ n, n < 256 → s.mem.read n = img.getD n 0)

/-! ### Round trips -/

/-- PUSH then POP round trip (42_stack_subroutine.md R166 (a)): a register other than R7 that is pushed, then any properly
nested sequence of pushes and pops that names R7 in no pop, then popped again, holds its value and SP its old value. The
sequence is straight-line code at rising addresses, so it is short enough that the stack does not wrap onto the cell. -/
def Obligations.PushNestedPopRestores : Prop :=
  ∀ (s : State) (v : Byte) (n : Reg) (is : List Instr), v.toNat = n.val → n ≠ spIndex → Nested is →
    s.pc.toNat + 2 * (is.length + 2) < 256 →
    ∃ t, execAll (.push v :: is ++ [.pop v]) s = .next t ∧ t.x.get n = s.x.get n ∧
      t.x.get spIndex = s.x.get spIndex ∧ t.pc.toNat = s.pc.toNat + 2 * (is.length + 2) ∧
      t = { s with x := t.x, mem := t.mem, pc := t.pc }

/-- CALL then RET round trip (R166 (b)): `pc` resumes at the call's address plus 2 and every register holds its old value.
CALL R7 is included (R168, the spec's decision D9). -/
def Obligations.CallThenRetResumes : Prop :=
  ∀ (s : State) (v : Byte) (r : Reg), v.toNat = r.val → s.pc.toNat < 254 →
    ∃ t u, exec (.call v) s = .next t ∧ exec .ret t = .next u ∧ u.pc.toNat = s.pc.toNat + 2 ∧
      (∀ q, u.x.get q = s.x.get q) ∧ u = { s with x := u.x, mem := u.mem, pc := u.pc }

/-! ### Completion, and runs under a fuel bound -/

/-- Every form completes where its checks pass: a well-formed instruction whose `need` is at most 255, executed in RUN, has a
next state that is no fault, in HALT for HLT and in RUN for every other (40_loop_and_data.md R113 to R115, R117). RET and
HLT have no condition but RUN. The checks are the spec's decisions D3, D5 and D10. -/
def Obligations.WellFormedInstructionsComplete : Prop :=
  (∀ (i : Instr) (s : State), s.status = .run → i.wellFormed = true → need i.mnemonic s < 256 →
    ∃ t, exec i s = .next t ∧ t.status = if i = .hlt then .halt else .run) ∧
  (∀ s : State, s.status = .run → ∃ t, exec .ret s = .next t ∧ t.status = .run) ∧
  (∀ s : State, ∃ t, exec .hlt s = .next t ∧ t.status = .halt)

/-- Fuel only decides whether there is an answer (40_loop_and_data.md R116, R122; the spec's decision D26): some amount of fuel
answers `t` exactly when the run reaches `t` and `t` is in HALT or FAULT; more fuel keeps an answer; and two answers are
the same state. That IDLE gives no answer is the model's choice (log 13). -/
def Obligations.FuelOnlyDecidesWhetherARunAnswers : Prop :=
  ∀ (c : Config) (s t : State),
    ((∃ fuel, runFor c fuel s = .ended t) ↔ Reaches c s t ∧ (t.completed ∨ t.wentWrong)) ∧
    (∀ fuel more, runFor c fuel s = .ended t → runFor c (fuel + more) s = .ended t) ∧
    (∀ fuel fuel' u, runFor c fuel s = .ended t → runFor c fuel' s = .ended u → t = u)
end

