-- ==== Sys2Proof/Laws/Decode.lean ====
section
/-! SUPPORT. What looking up an opcode byte says, for every injective opcode map. -/
namespace Sys2Proof

theorem Mnemonic.mem_all (m : Mnemonic) : m ∈ Mnemonic.all := by cases m <;> decide

/-- A row's own opcode byte selects that row (30_encoding.md R87, R92). -/
@[simp] theorem lookupOpcode_opcode (c : Config) (m : Mnemonic) : lookupOpcode c (c.opcode m) = some m := by
  have h : ∀ l : List Mnemonic, m ∈ l → l.find? (fun n => c.opcode n == c.opcode m) = some m := by
    intro l hm
    induction l with
    | nil => cases hm
    | cons n l ih =>
      by_cases hn : c.opcode n = c.opcode m
      · have e := c.opcode_injective n m hn
        subst e
        simp
      · have hne : m ≠ n := fun e => hn (e ▸ rfl)
        simp only [List.find?_cons, beq_eq_false_iff_ne.mpr hn]
        exact ih ((List.mem_cons.mp hm).resolve_left hne)
  exact h _ m.mem_all

/-- The row an opcode byte selects has that byte. -/
theorem lookupOpcode_some {c : Config} {op : Byte} {m : Mnemonic} (h : lookupOpcode c op = some m) :
    c.opcode m = op := by
  simpa using List.find?_some h

/-- A byte selects no row exactly when it is no row's opcode (30_encoding.md R88). -/
theorem lookupOpcode_none {c : Config} {op : Byte} : lookupOpcode c op = none ↔ ∀ m, c.opcode m ≠ op := by
  constructor
  · intro h m e
    rw [← e, lookupOpcode_opcode] at h
    cases h
  · intro h
    cases e : lookupOpcode c op with
    | none => rfl
    | some m => exact absurd (lookupOpcode_some e) (h m)

/-- The instruction made from a row belongs to that row. -/
@[simp] theorem Mnemonic.withOperands_mnemonic (m : Mnemonic) (a b : Byte) : (m.withOperands a b).mnemonic = m := by
  cases m <;> rfl

end Sys2Proof
end

