-- ==== Sys2Proof/Laws/State.lean ====
section
/-! SUPPORT. One lemma for each field of State under each update of Machine/Ops.lean, true by rfl and in the simp set, and
the read-after-write law of the register file. Later proofs cite these and never unfold a record update. -/
namespace Sys2Proof.Machine

@[simp] theorem State.setReg_x (s : State) (r : Reg) (v : Byte) : (s.setReg r v).x = s.x.set r v := rfl
@[simp] theorem State.setReg_pc (s : State) (r : Reg) (v : Byte) : (s.setReg r v).pc = s.pc := rfl
@[simp] theorem State.setReg_fl (s : State) (r : Reg) (v : Byte) : (s.setReg r v).fl = s.fl := rfl
@[simp] theorem State.setReg_ir (s : State) (r : Reg) (v : Byte) : (s.setReg r v).ir = s.ir := rfl
@[simp] theorem State.setReg_status (s : State) (r : Reg) (v : Byte) : (s.setReg r v).status = s.status := rfl
@[simp] theorem State.setReg_mem (s : State) (r : Reg) (v : Byte) : (s.setReg r v).mem = s.mem := rfl
@[simp] theorem State.setReg_out (s : State) (r : Reg) (v : Byte) : (s.setReg r v).out = s.out := rfl

@[simp] theorem State.setPc_x (s : State) (t : Byte) : (s.setPc t).x = s.x := rfl
@[simp] theorem State.setPc_pc (s : State) (t : Byte) : (s.setPc t).pc = t := rfl
@[simp] theorem State.setPc_fl (s : State) (t : Byte) : (s.setPc t).fl = s.fl := rfl
@[simp] theorem State.setPc_ir (s : State) (t : Byte) : (s.setPc t).ir = s.ir := rfl
@[simp] theorem State.setPc_status (s : State) (t : Byte) : (s.setPc t).status = s.status := rfl
@[simp] theorem State.setPc_mem (s : State) (t : Byte) : (s.setPc t).mem = s.mem := rfl
@[simp] theorem State.setPc_out (s : State) (t : Byte) : (s.setPc t).out = s.out := rfl

@[simp] theorem State.setFl_x (s : State) (v : Byte) : (s.setFl v).x = s.x := rfl
@[simp] theorem State.setFl_pc (s : State) (v : Byte) : (s.setFl v).pc = s.pc := rfl
@[simp] theorem State.setFl_fl (s : State) (v : Byte) : (s.setFl v).fl = v := rfl
@[simp] theorem State.setFl_ir (s : State) (v : Byte) : (s.setFl v).ir = s.ir := rfl
@[simp] theorem State.setFl_status (s : State) (v : Byte) : (s.setFl v).status = s.status := rfl
@[simp] theorem State.setFl_mem (s : State) (v : Byte) : (s.setFl v).mem = s.mem := rfl
@[simp] theorem State.setFl_out (s : State) (v : Byte) : (s.setFl v).out = s.out := rfl

@[simp] theorem State.setStatus_x (s : State) (v : Status) : (s.setStatus v).x = s.x := rfl
@[simp] theorem State.setStatus_pc (s : State) (v : Status) : (s.setStatus v).pc = s.pc := rfl
@[simp] theorem State.setStatus_fl (s : State) (v : Status) : (s.setStatus v).fl = s.fl := rfl
@[simp] theorem State.setStatus_ir (s : State) (v : Status) : (s.setStatus v).ir = s.ir := rfl
@[simp] theorem State.setStatus_status (s : State) (v : Status) : (s.setStatus v).status = v := rfl
@[simp] theorem State.setStatus_mem (s : State) (v : Status) : (s.setStatus v).mem = s.mem := rfl
@[simp] theorem State.setStatus_out (s : State) (v : Status) : (s.setStatus v).out = s.out := rfl

@[simp] theorem State.memWrite_x (s : State) (a v : Byte) : (s.memWrite a v).x = s.x := rfl
@[simp] theorem State.memWrite_pc (s : State) (a v : Byte) : (s.memWrite a v).pc = s.pc := rfl
@[simp] theorem State.memWrite_fl (s : State) (a v : Byte) : (s.memWrite a v).fl = s.fl := rfl
@[simp] theorem State.memWrite_ir (s : State) (a v : Byte) : (s.memWrite a v).ir = s.ir := rfl
@[simp] theorem State.memWrite_status (s : State) (a v : Byte) : (s.memWrite a v).status = s.status := rfl
@[simp] theorem State.memWrite_mem (s : State) (a v : Byte) : (s.memWrite a v).mem = s.mem.write a.toNat v := rfl
@[simp] theorem State.memWrite_out (s : State) (a v : Byte) : (s.memWrite a v).out = s.out := rfl

@[simp] theorem State.emit_x (s : State) (v : Byte) : (s.emit v).x = s.x := rfl
@[simp] theorem State.emit_pc (s : State) (v : Byte) : (s.emit v).pc = s.pc := rfl
@[simp] theorem State.emit_fl (s : State) (v : Byte) : (s.emit v).fl = s.fl := rfl
@[simp] theorem State.emit_ir (s : State) (v : Byte) : (s.emit v).ir = s.ir := rfl
@[simp] theorem State.emit_status (s : State) (v : Byte) : (s.emit v).status = s.status := rfl
@[simp] theorem State.emit_mem (s : State) (v : Byte) : (s.emit v).mem = s.mem := rfl
@[simp] theorem State.emit_out (s : State) (v : Byte) : (s.emit v).out = s.out ++ [v] := rfl

@[simp] theorem State.latchOpcode_x (s : State) : (s.latchOpcode).x = s.x := rfl
@[simp] theorem State.latchOpcode_pc (s : State) : (s.latchOpcode).pc = s.pc := rfl
@[simp] theorem State.latchOpcode_fl (s : State) : (s.latchOpcode).fl = s.fl := rfl
@[simp] theorem State.latchOpcode_ir (s : State) : (s.latchOpcode).ir = s.mem.read s.pc.toNat := rfl
@[simp] theorem State.latchOpcode_status (s : State) : (s.latchOpcode).status = s.status := rfl
@[simp] theorem State.latchOpcode_mem (s : State) : (s.latchOpcode).mem = s.mem := rfl
@[simp] theorem State.latchOpcode_out (s : State) : (s.latchOpcode).out = s.out := rfl

@[simp] theorem State.takeFault_x (s : State) (cause : FaultCause) : (s.takeFault cause).x = s.x := rfl
@[simp] theorem State.takeFault_pc (s : State) (cause : FaultCause) : (s.takeFault cause).pc = s.pc := rfl
@[simp] theorem State.takeFault_fl (s : State) (cause : FaultCause) : (s.takeFault cause).fl = s.fl := rfl
@[simp] theorem State.takeFault_ir (s : State) (cause : FaultCause) : (s.takeFault cause).ir = s.ir := rfl
@[simp] theorem State.takeFault_status (s : State) (cause : FaultCause) : (s.takeFault cause).status = .fault ⟨cause, s.ir, s.pc⟩ := rfl
@[simp] theorem State.takeFault_mem (s : State) (cause : FaultCause) : (s.takeFault cause).mem = s.mem := rfl
@[simp] theorem State.takeFault_out (s : State) (cause : FaultCause) : (s.takeFault cause).out = s.out := rfl

@[simp] theorem State.advance_x (s : State) (m : Mnemonic) : (s.advance m).x = s.x := rfl
@[simp] theorem State.advance_pc (s : State) (m : Mnemonic) : (s.advance m).pc = s.pcPlus m.length := rfl
@[simp] theorem State.advance_fl (s : State) (m : Mnemonic) : (s.advance m).fl = s.fl := rfl
@[simp] theorem State.advance_ir (s : State) (m : Mnemonic) : (s.advance m).ir = s.ir := rfl
@[simp] theorem State.advance_status (s : State) (m : Mnemonic) : (s.advance m).status = s.status := rfl
@[simp] theorem State.advance_mem (s : State) (m : Mnemonic) : (s.advance m).mem = s.mem := rfl
@[simp] theorem State.advance_out (s : State) (m : Mnemonic) : (s.advance m).out = s.out := rfl

@[simp] theorem State.lowerSp_x (s : State) : (s.lowerSp).x = s.x.set spIndex (s.x.get spIndex - 1) := rfl
@[simp] theorem State.lowerSp_pc (s : State) : (s.lowerSp).pc = s.pc := rfl
@[simp] theorem State.lowerSp_fl (s : State) : (s.lowerSp).fl = s.fl := rfl
@[simp] theorem State.lowerSp_ir (s : State) : (s.lowerSp).ir = s.ir := rfl
@[simp] theorem State.lowerSp_status (s : State) : (s.lowerSp).status = s.status := rfl
@[simp] theorem State.lowerSp_mem (s : State) : (s.lowerSp).mem = s.mem := rfl
@[simp] theorem State.lowerSp_out (s : State) : (s.lowerSp).out = s.out := rfl

@[simp] theorem State.raiseSp_x (s : State) : (s.raiseSp).x = s.x.set spIndex (s.x.get spIndex + 1) := rfl
@[simp] theorem State.raiseSp_pc (s : State) : (s.raiseSp).pc = s.pc := rfl
@[simp] theorem State.raiseSp_fl (s : State) : (s.raiseSp).fl = s.fl := rfl
@[simp] theorem State.raiseSp_ir (s : State) : (s.raiseSp).ir = s.ir := rfl
@[simp] theorem State.raiseSp_status (s : State) : (s.raiseSp).status = s.status := rfl
@[simp] theorem State.raiseSp_mem (s : State) : (s.raiseSp).mem = s.mem := rfl
@[simp] theorem State.raiseSp_out (s : State) : (s.raiseSp).out = s.out := rfl

/-- Reading a register after a write gives the written value there and the old value elsewhere (10_state.md R20). -/
@[simp] theorem RegFile.get_set (x : RegFile) (r q : Reg) (v : Byte) :
    (x.set r v).get q = if q = r then v else x.get q := by
  fin_cases r <;> fin_cases q <;> rfl

/-- Two register files that read alike are equal. -/
theorem RegFile.ext_get (x y : RegFile) (h : ∀ r, x.get r = y.get r) : x = y := by
  cases x
  cases y
  have h0 := h 0
  have h1 := h 1
  have h2 := h 2
  have h3 := h 3
  have h4 := h 4
  have h5 := h 5
  have h6 := h 6
  have h7 := h 7
  simp_all [RegFile.get]

/-- `x[r]` is the register file read at `r`. -/
@[simp] theorem State.reg_eq (s : State) (r : Reg) : s.reg r = s.x.get r := rfl

/-- SP is `x[7]` (10_state.md R22). -/
@[simp] theorem State.sp_eq (s : State) : s.sp = s.x.get spIndex := rfl

/-- `MemRead(a, 1)` is memory read at the number of `a`. -/
@[simp] theorem State.memRead_eq (s : State) (a : Byte) : s.memRead a = s.mem.read a.toNat := rfl

/-- `p + k` is exact while it stays in memory (10_state.md R25, R28). -/
theorem State.pcPlus_toNat (s : State) (k : Nat) (h : s.pc.toNat + k < 256) :
    (s.pcPlus k).toNat = s.pc.toNat + k := by
  simp only [State.pcPlus, BitVec.toNat_ofNat]
  omega

end Sys2Proof.Machine
end

