-- ==== Sys2Proof/Laws/Memory.lean ====
section
/-! SUPPORT. The laws of memory: what a read gives after a write, that every operation keeps the canonical form, and what
placing bytes does. -/
namespace Sys2Proof.Machine

/-- A cell that is not listed reads as 0x00. -/
theorem Memory.read_eq_zero {m : Memory} {a : Nat} (h : ∀ c ∈ m, c.1 ≠ a) : m.read a = 0 := by
  induction m with
  | nil => rfl
  | cons c m ih =>
    have hc : ¬ a = c.1 := fun e => h c List.mem_cons_self e.symm
    simp only [Memory.read, hc, if_false]
    exact ih fun d hd => h d (List.mem_cons_of_mem c hd)

theorem Memory.read_clearCell_same (m : Memory) (a : Nat) : (m.clearCell a).read a = 0 := by
  apply Memory.read_eq_zero
  intro c hc
  simpa using (List.mem_filter.mp hc).2

theorem Memory.read_clearCell_other (m : Memory) {a b : Nat} (h : b ≠ a) : (m.clearCell a).read b = m.read b := by
  induction m with
  | nil => rfl
  | cons c m ih =>
    obtain ⟨k, v⟩ := c
    by_cases hk : k = a
    · subst hk
      simpa [Memory.clearCell, Memory.read, h] using ih
    · have e : Memory.clearCell ((k, v) :: m) a = (k, v) :: Memory.clearCell m a := by simp [Memory.clearCell, hk]
      simp [e, Memory.read, ih]

theorem Memory.read_insertCell (m : Memory) {a : Nat} (v : Byte) (b : Nat) (h : ∀ c ∈ m, c.1 ≠ a) :
    (m.insertCell a v).read b = if b = a then v else m.read b := by
  induction m with
  | nil => rfl
  | cons c m ih =>
    obtain ⟨k, w⟩ := c
    have hk : k ≠ a := h (k, w) List.mem_cons_self
    have ih := ih fun d hd => h d (List.mem_cons_of_mem _ hd)
    by_cases hlt : a < k
    · simp [Memory.insertCell, hlt, Memory.read]
    · simp only [Memory.insertCell, hlt, if_false, Memory.read, ih]
      by_cases hb : b = k
      · simp [hb, hk]
      · simp [hb]

theorem Memory.clearCell_ne {m : Memory} {a : Nat} : ∀ c ∈ m.clearCell a, c.1 ≠ a := by
  intro c hc
  simpa using (List.mem_filter.mp hc).2

/-- A read after a write gives the written byte in that cell and the old byte in every other (20_memory.md R54). -/
@[simp] theorem Memory.read_write (m : Memory) (a : Nat) (v : Byte) (b : Nat) :
    (m.write a v).read b = if b = a then v else m.read b := by
  by_cases hv : v = 0
  · subst hv
    by_cases hb : b = a
    · simp [Memory.write, hb, Memory.read_clearCell_same]
    · simp [Memory.write, hb, Memory.read_clearCell_other]
  · simp only [Memory.write, hv, if_false, Memory.read_insertCell _ v b Memory.clearCell_ne]
    by_cases hb : b = a
    · simp [hb]
    · simp [hb, Memory.read_clearCell_other]

/-- Memory with nothing listed is in canonical form. -/
theorem Memory.wf_nil : Memory.wf [] := ⟨List.Pairwise.nil, fun _ h => nomatch h⟩

/-- The memory after reset is in canonical form. -/
theorem State.reset_mem_wf : State.reset.mem.wf := Memory.wf_nil

theorem Memory.wf_clearCell {m : Memory} (h : m.wf) (a : Nat) : (m.clearCell a).wf :=
  ⟨h.1.filter _, fun c hc => h.2 c (List.mem_of_mem_filter hc)⟩

theorem Memory.mem_insertCell {m : Memory} {a : Nat} {v : Byte} {c : Host.Cell} (h : c ∈ m.insertCell a v) :
    c = (a, v) ∨ c ∈ m := by
  induction m with
  | nil => simpa [Memory.insertCell] using h
  | cons d m ih =>
    obtain ⟨k, w⟩ := d
    by_cases hlt : a < k
    · simpa [Memory.insertCell, hlt] using h
    · simp only [Memory.insertCell, hlt, if_false, List.mem_cons] at h
      rcases h with h | h
      · exact .inr (h ▸ List.mem_cons_self)
      · exact (ih h).imp_right (List.mem_cons_of_mem _)

theorem Memory.wf_insertCell {m : Memory} {a : Nat} {v : Byte} (h : m.wf) (hne : ∀ c ∈ m, c.1 ≠ a)
    (ha : a < memSize) (hv : v ≠ 0) : (m.insertCell a v).wf := by
  refine ⟨?_, ?_⟩
  · induction m with
    | nil => simp [Memory.insertCell]
    | cons d m ih =>
      obtain ⟨k, w⟩ := d
      have hs := List.pairwise_cons.mp h.1
      have hk : k ≠ a := hne (k, w) List.mem_cons_self
      by_cases hlt : a < k
      · simp only [Memory.insertCell, hlt, if_true]
        refine List.pairwise_cons.mpr ⟨?_, h.1⟩
        intro c hc
        rcases List.mem_cons.mp hc with rfl | hc
        · exact hlt
        · exact Nat.lt_trans hlt (hs.1 c hc)
      · simp only [Memory.insertCell, hlt, if_false]
        refine List.pairwise_cons.mpr ⟨?_, ih ⟨hs.2, fun c hc => h.2 c (List.mem_cons_of_mem _ hc)⟩
          fun c hc => hne c (List.mem_cons_of_mem _ hc)⟩
        intro c hc
        rcases Memory.mem_insertCell hc with rfl | hc
        · show k < a
          omega
        · exact hs.1 c hc
  · intro c hc
    rcases Memory.mem_insertCell hc with rfl | hc
    · exact ⟨ha, hv⟩
    · exact h.2 c hc

/-- A write to a cell that exists keeps the canonical form. -/
theorem Memory.wf_write {m : Memory} (h : m.wf) {a : Nat} (ha : a < memSize) (v : Byte) : (m.write a v).wf := by
  by_cases hv : v = 0
  · simpa only [Memory.write, hv, if_true] using Memory.wf_clearCell h a
  · simpa only [Memory.write, hv, if_false] using
      Memory.wf_insertCell (Memory.wf_clearCell h a) Memory.clearCell_ne ha hv

/-- `MemWrite` keeps the canonical form: every 8-bit address exists (20_memory.md R55). -/
theorem State.wf_memWrite {s : State} (h : s.mem.wf) (a v : Byte) : (s.memWrite a v).mem.wf :=
  Memory.wf_write h a.isLt v

/-- Placing bytes keeps the canonical form. -/
theorem Memory.wf_putBytes {m : Memory} (h : m.wf) (a : Nat) (vs : List Byte) : (m.putBytes a vs).wf := by
  induction vs generalizing m a with
  | nil => exact h
  | cons v vs ih =>
    by_cases ha : a < memSize
    · simpa only [Memory.putBytes, ha, if_true] using ih (Memory.wf_write h ha v) (a + 1)
    · simpa only [Memory.putBytes, ha, if_false] using h

/-- Placing bytes from cell `a` up changes no cell below it. -/
theorem Memory.read_putBytes_below (m : Memory) (a b : Nat) (vs : List Byte) (h : b < a) :
    (m.putBytes a vs).read b = m.read b := by
  induction vs generalizing m a with
  | nil => rfl
  | cons v vs ih =>
    by_cases ha : a < memSize
    · have hb : ¬ b = a := by omega
      simp only [Memory.putBytes, ha, if_true]
      rw [ih (m.write a v) (a + 1) (by omega)]
      simp [hb]
    · simp only [Memory.putBytes, ha, if_false]

end Sys2Proof.Machine
end

