-- ==== Sys2Proof/Laws/Operands.lean ====
section
/-! SUPPORT. What each check of Machine/Operands.lean can answer, said once: going on where it passes, and one inversion
lemma each for a next state. -/
namespace Sys2Proof.Machine

/-- A register operand byte names register `r` exactly when its value is `r` (30_encoding.md R91). -/
theorem regOf_eq_some {v : Byte} {r : Reg} : regOf v = some r ↔ v.toNat = r.val := by
  unfold regOf
  split
  · rename_i h
    rw [Option.some.injEq, Fin.ext_iff]
  · rename_i h
    have := r.isLt
    constructor
    · intro e
      cases e
    · intro e
      omega

/-- A byte from 8 up names no register (30_encoding.md R91). -/
theorem regOf_eq_none {v : Byte} : regOf v = none ↔ 8 ≤ v.toNat := by
  unfold regOf
  split
  · simp
    omega
  · simp
    omega

theorem checkAddress_pass {m : Mnemonic} {s : State} (go : Result) (h : need m s < 256) :
    checkAddress m s go = go := if_pos h

theorem checkAddress_fail {m : Mnemonic} {s : State} (go : Result) (h : 256 ≤ need m s) :
    checkAddress m s go = .next (s.takeFault (.address (need m s))) :=
  if_neg (Nat.not_lt.mpr h)

theorem checkReg_pass {v : Byte} {r : Reg} (s : State) (go : Reg → Result) (h : v.toNat = r.val) :
    checkReg v s go = go r := by
  simp only [checkReg, regOf_eq_some.mpr h]

theorem checkReg_fail {v : Byte} (s : State) (go : Reg → Result) (h : 8 ≤ v.toNat) :
    checkReg v s go = .next (s.takeFault (.registerIndex v)) := by
  simp only [checkReg, regOf_eq_none.mpr h]

theorem checkR_pass {m : Mnemonic} {v : Byte} {r : Reg} {s : State} (go : Reg → Result) (hn : need m s < 256)
    (hv : v.toNat = r.val) : checkR m v s go = go r := by
  rw [checkR, checkAddress_pass _ hn, checkReg_pass s go hv]

theorem checkRR_pass {m : Mnemonic} {v w : Byte} {a b : Reg} {s : State} (go : Reg → Reg → Result)
    (hn : need m s < 256) (hv : v.toNat = a.val) (hw : w.toNat = b.val) : checkRR m v w s go = go a b := by
  rw [checkRR, checkAddress_pass _ hn, checkReg_pass s _ hv, checkReg_pass s _ hw]

/-- What a format R instruction can do: fault on its address, fault on its register byte, or go on with its register
(40_loop_and_data.md R110). -/
theorem checkR_cases (m : Mnemonic) (v : Byte) (s : State) (go : Reg → Result) :
    (256 ≤ need m s ∧ checkR m v s go = .next (s.takeFault (.address (need m s)))) ∨
    (need m s < 256 ∧ 8 ≤ v.toNat ∧ checkR m v s go = .next (s.takeFault (.registerIndex v))) ∨
    (∃ r : Reg, need m s < 256 ∧ v.toNat = r.val ∧ checkR m v s go = go r) := by
  by_cases hn : need m s < 256
  · by_cases hv : v.toNat < 8
    · exact .inr (.inr ⟨⟨v.toNat, hv⟩, hn, rfl, checkR_pass go hn rfl⟩)
    · refine .inr (.inl ⟨hn, by omega, ?_⟩)
      rw [checkR, checkAddress_pass _ hn, checkReg_fail s go (by omega)]
  · exact .inl ⟨by omega, checkAddress_fail _ (by omega)⟩

/-- What a format RR instruction can do: fault on its address, on its first register byte, on its second, or go on with its
registers (40_loop_and_data.md R110, R114). -/
theorem checkRR_cases (m : Mnemonic) (v w : Byte) (s : State) (go : Reg → Reg → Result) :
    (256 ≤ need m s ∧ checkRR m v w s go = .next (s.takeFault (.address (need m s)))) ∨
    (need m s < 256 ∧ 8 ≤ v.toNat ∧ checkRR m v w s go = .next (s.takeFault (.registerIndex v))) ∨
    (need m s < 256 ∧ v.toNat < 8 ∧ 8 ≤ w.toNat ∧
      checkRR m v w s go = .next (s.takeFault (.registerIndex w))) ∨
    (∃ a b : Reg, need m s < 256 ∧ v.toNat = a.val ∧ w.toNat = b.val ∧ checkRR m v w s go = go a b) := by
  by_cases hn : need m s < 256
  · by_cases hv : v.toNat < 8
    · by_cases hw : w.toNat < 8
      · exact .inr (.inr (.inr ⟨⟨v.toNat, hv⟩, ⟨w.toNat, hw⟩, hn, rfl, rfl, checkRR_pass go hn rfl rfl⟩))
      · refine .inr (.inr (.inl ⟨hn, hv, by omega, ?_⟩))
        rw [checkRR, checkAddress_pass _ hn, checkReg_pass s _ (r := ⟨v.toNat, hv⟩) rfl, checkReg_fail s _ (by omega)]
    · refine .inr (.inl ⟨hn, by omega, ?_⟩)
      rw [checkRR, checkAddress_pass _ hn, checkReg_fail s _ (by omega)]
  · exact .inl ⟨by omega, checkAddress_fail _ (by omega)⟩

/-- The number `need` is at most three past `pc` (40_loop_and_data.md R113). -/
theorem need_le (m : Mnemonic) (s : State) : need m s ≤ s.pc.toNat + 3 := by
  cases m <;> simp only [need] <;> (try split) <;> omega

end Sys2Proof.Machine
end

