-- ==== Sys2Proof/Laws/Exec.lean ====
section
/-! SUPPORT. Everything an instruction can do, said once: `exec` takes an AddressFault, takes a RegisterIndexFault, or has
the instruction's own effect, `effect`. -/
namespace Sys2Proof.Machine

/-- The effects of the thirteen instructions once their checks have passed, with their register operands as registers
(40_loop_and_data.md R115). -/
inductive Effect (s : State) : Instr → State → Prop
  | hlt : Effect s .hlt (s.setStatus .halt)
  | ldi (v imm : Byte) (r : Reg) : v.toNat = r.val → s.pc.toNat + 3 < 256 →
      Effect s (.ldi v imm) ((s.setReg r imm).advance .ldi)
  | prn (v : Byte) (r : Reg) : v.toNat = r.val → s.pc.toNat + 2 < 256 →
      Effect s (.prn v) ((s.emit (s.x.get r)).advance .prn)
  | add (v w : Byte) (a b : Reg) : v.toNat = a.val → w.toNat = b.val → s.pc.toNat + 3 < 256 →
      Effect s (.add v w)
        ((s.setReg a (BitVec.ofNat 8 ((s.x.get a).toNat + (s.x.get b).toNat))).advance .add)
  | mul (v w : Byte) (a b : Reg) : v.toNat = a.val → w.toNat = b.val → s.pc.toNat + 3 < 256 →
      Effect s (.mul v w)
        ((s.setReg a (BitVec.ofNat 8 ((s.x.get a).toNat * (s.x.get b).toNat))).advance .mul)
  | cmp (v w : Byte) (a b : Reg) : v.toNat = a.val → w.toNat = b.val → s.pc.toNat + 3 < 256 →
      Effect s (.cmp v w) ((s.setFl (compareFlags (s.x.get a) (s.x.get b))).advance .cmp)
  | push (v : Byte) (r : Reg) : v.toNat = r.val → s.pc.toNat + 2 < 256 →
      Effect s (.push v) ((s.pushReg r).advance .push)
  | pop (v : Byte) (r : Reg) : v.toNat = r.val → s.pc.toNat + 2 < 256 →
      Effect s (.pop v) ((s.popReg r).advance .pop)
  | call (v : Byte) (r : Reg) : v.toNat = r.val → s.pc.toNat + 2 < 256 →
      Effect s (.call v) (s.pushReturn.setPc (s.pushReturn.x.get r))
  | ret : Effect s .ret ((s.setPc (s.mem.read (s.x.get spIndex).toNat)).raiseSp)
  | jmp (v : Byte) (r : Reg) : v.toNat = r.val → s.pc.toNat + 1 < 256 → Effect s (.jmp v) (s.setPc (s.x.get r))
  | jeqTaken (v : Byte) (r : Reg) : v.toNat = r.val → equalBit s.fl = true → s.pc.toNat + 1 < 256 →
      Effect s (.jeq v) (s.setPc (s.x.get r))
  | jeqNot (v : Byte) (r : Reg) : v.toNat = r.val → equalBit s.fl = false → s.pc.toNat + 2 < 256 →
      Effect s (.jeq v) (s.advance .jeq)
  | jneTaken (v : Byte) (r : Reg) : v.toNat = r.val → equalBit s.fl = false → s.pc.toNat + 1 < 256 →
      Effect s (.jne v) (s.setPc (s.x.get r))
  | jneNot (v : Byte) (r : Reg) : v.toNat = r.val → equalBit s.fl = true → s.pc.toNat + 2 < 256 →
      Effect s (.jne v) (s.advance .jne)

/-- An instruction's own effect leaves the status, but for HLT's. -/
theorem Effect.status_eq {i : Instr} {s t : State} (h : Effect s i t) :
    t.status = if i = .hlt then .halt else s.status := by
  cases h <;> rfl

/-- CMP's flags are exactly one of the three (41_alu.md R144). -/
theorem compareFlags_cases (u v : Byte) :
    compareFlags u v = flagE ∨ compareFlags u v = flagG ∨ compareFlags u v = flagL := by
  unfold compareFlags
  split
  · exact .inl rfl
  · split
    · exact .inr (.inl rfl)
    · exact .inr (.inr rfl)

/-- The three things executing an instruction can do. -/
inductive Executes (i : Instr) (s : State) : State → Prop
  | address : 256 ≤ need i.mnemonic s → Executes i s (s.takeFault (.address (need i.mnemonic s)))
  | registerIndex (v : Byte) : need i.mnemonic s < 256 → i.regOperands.find? (fun v => !regByteOk v) = some v →
      Executes i s (s.takeFault (.registerIndex v))
  | effect (t : State) : need i.mnemonic s < 256 → i.wellFormed = true → Effect s i t → Executes i s t

theorem regByteOk_of_reg {v : Byte} {r : Reg} (h : v.toNat = r.val) : regByteOk v = true := by
  have := r.isLt
  simp only [regByteOk, decide_eq_true_eq]
  omega

theorem regByteOk_of_lt {v : Byte} (h : v.toNat < 8) : regByteOk v = true := by
  simp only [regByteOk, decide_eq_true_eq]
  omega

theorem regByteOk_of_ge {v : Byte} (h : 8 ≤ v.toNat) : regByteOk v = false := by
  simp only [regByteOk, decide_eq_false_iff_not]
  omega

theorem executes_checkR {i : Instr} {v : Byte} (hr : i.regOperands = [v]) (s : State) (go : Reg → Result)
    (h : ∀ r : Reg, need i.mnemonic s < 256 → v.toNat = r.val → ∃ t, go r = .next t ∧ Effect s i t) :
    ∃ t, checkR i.mnemonic v s go = .next t ∧ Executes i s t := by
  rcases checkR_cases i.mnemonic v s go with ⟨hn, e⟩ | ⟨hn, hv, e⟩ | ⟨r, hn, hv, e⟩
  · exact ⟨_, e, .address hn⟩
  · exact ⟨_, e, .registerIndex v hn (by simp [hr, regByteOk_of_ge hv])⟩
  · obtain ⟨t, ht, he⟩ := h r hn hv
    exact ⟨t, e.trans ht, .effect t hn (by simp [Instr.wellFormed, hr, regByteOk_of_reg hv]) he⟩

theorem executes_checkRR {i : Instr} {v w : Byte} (hr : i.regOperands = [v, w]) (s : State)
    (go : Reg → Reg → Result)
    (h : ∀ a b : Reg, need i.mnemonic s < 256 → v.toNat = a.val → w.toNat = b.val →
      ∃ t, go a b = .next t ∧ Effect s i t) :
    ∃ t, checkRR i.mnemonic v w s go = .next t ∧ Executes i s t := by
  rcases checkRR_cases i.mnemonic v w s go with ⟨hn, e⟩ | ⟨hn, hv, e⟩ | ⟨hn, hv, hw, e⟩ | ⟨a, b, hn, hv, hw, e⟩
  · exact ⟨_, e, .address hn⟩
  · exact ⟨_, e, .registerIndex v hn (by simp [hr, regByteOk_of_ge hv])⟩
  · exact ⟨_, e, .registerIndex w hn (by simp [hr, regByteOk_of_lt hv, regByteOk_of_ge hw])⟩
  · obtain ⟨t, ht, he⟩ := h a b hn hv hw
    exact ⟨t, e.trans ht,
      .effect t hn (by simp [Instr.wellFormed, hr, regByteOk_of_reg hv, regByteOk_of_reg hw]) he⟩

/-- THE INVERSION LEMMA: every instruction answers a next state, and that state is one of the three. -/
theorem exec_executes (i : Instr) (s : State) : ∃ t, exec i s = .next t ∧ Executes i s t := by
  cases i with
  | hlt => exact ⟨_, rfl, .effect _ s.pc.isLt rfl .hlt⟩
  | ret => exact ⟨_, rfl, .effect _ s.pc.isLt rfl .ret⟩
  | ldi v imm => exact executes_checkR rfl s _ fun r hn hv => ⟨_, rfl, .ldi v imm r hv hn⟩
  | prn v => exact executes_checkR rfl s _ fun r hn hv => ⟨_, rfl, .prn v r hv hn⟩
  | mul v w => exact executes_checkRR rfl s _ fun a b hn hv hw => ⟨_, rfl, .mul v w a b hv hw hn⟩
  | add v w => exact executes_checkRR rfl s _ fun a b hn hv hw => ⟨_, rfl, .add v w a b hv hw hn⟩
  | cmp v w => exact executes_checkRR rfl s _ fun a b hn hv hw => ⟨_, rfl, .cmp v w a b hv hw hn⟩
  | push v => exact executes_checkR rfl s _ fun r hn hv => ⟨_, rfl, .push v r hv hn⟩
  | pop v => exact executes_checkR rfl s _ fun r hn hv => ⟨_, rfl, .pop v r hv hn⟩
  | call v => exact executes_checkR rfl s _ fun r hn hv => ⟨_, rfl, .call v r hv hn⟩
  | jmp v => exact executes_checkR rfl s _ fun r hn hv => ⟨_, rfl, .jmp v r hv hn⟩
  | jeq v =>
    refine executes_checkR (i := .jeq v) rfl s _ fun r hn hv => ?_
    simp only [Instr.mnemonic, need] at hn
    cases e : equalBit s.fl
    · exact ⟨_, rfl, .jeqNot v r hv e (by simpa [e] using hn)⟩
    · exact ⟨_, rfl, .jeqTaken v r hv e (by simpa [e] using hn)⟩
  | jne v =>
    refine executes_checkR (i := .jne v) rfl s _ fun r hn hv => ?_
    simp only [Instr.mnemonic, need] at hn
    cases e : equalBit s.fl
    · exact ⟨_, rfl, .jneTaken v r hv e (by simpa [e] using hn)⟩
    · exact ⟨_, rfl, .jneNot v r hv e (by simpa [e] using hn)⟩

/-- What a next state of `exec` can be. -/
theorem executes_of_exec {i : Instr} {s t : State} (h : exec i s = .next t) : Executes i s t := by
  obtain ⟨u, hu, he⟩ := exec_executes i s
  rw [h] at hu
  cases hu
  exact he

/-- A well-formed instruction names no bad register byte. -/
theorem wellFormed_iff_find {i : Instr} :
    i.wellFormed = true ↔ i.regOperands.find? (fun v => !regByteOk v) = none := by
  simp [Instr.wellFormed]

/-- Where the address check fails, that is what happens (40_loop_and_data.md R113). -/
theorem exec_address {i : Instr} {s : State} (h : 256 ≤ need i.mnemonic s) :
    exec i s = .next (s.takeFault (.address (need i.mnemonic s))) := by
  obtain ⟨t, ht, hx⟩ := exec_executes i s
  rw [ht]
  cases hx with
  | address _ => rfl
  | registerIndex v hn _ => omega
  | effect _ hn _ _ => omega

/-- Where the address check passes and a register byte is bad, the first bad one is reported (R114). -/
theorem exec_registerIndex {i : Instr} {s : State} {v : Byte} (h : need i.mnemonic s < 256)
    (hv : i.regOperands.find? (fun v => !regByteOk v) = some v) :
    exec i s = .next (s.takeFault (.registerIndex v)) := by
  obtain ⟨t, ht, hx⟩ := exec_executes i s
  rw [ht]
  cases hx with
  | address hn => omega
  | registerIndex w _ hw =>
    rw [hv] at hw
    cases hw
    rfl
  | effect _ _ hw _ =>
    rw [wellFormed_iff_find.mp hw] at hv
    cases hv

/-- Where both checks pass, the instruction has its own effect (R115). -/
theorem exec_effect {i : Instr} {s : State} (h : need i.mnemonic s < 256) (hw : i.wellFormed = true) :
    ∃ t, exec i s = .next t ∧ Effect s i t := by
  obtain ⟨t, ht, hx⟩ := exec_executes i s
  refine ⟨t, ht, ?_⟩
  cases hx with
  | address hn => omega
  | registerIndex v _ hv =>
    rw [wellFormed_iff_find.mp hw] at hv
    cases hv
  | effect _ _ _ he => exact he

end Sys2Proof.Machine
end

