-- ==== Sys2Proof/Laws/HostEvents.lean ====
section
/-! SUPPORT. What a sequence of host events does, and what the Loader's load events leave in the machine. -/
namespace Sys2Proof.Machine

theorem State.hostEvents_append (s : State) (es fs : List HostEvent) :
    s.hostEvents (es ++ fs) = (s.hostEvents es).hostEvents fs := by
  simp only [State.hostEvents, List.foldl_append]

/-- Loading an image from cell `a` up in IDLE changes memory only: the cells the image covers hold its bytes and the others
keep theirs (70_reset_and_hazards.md R243, R245). -/
theorem State.hostEvents_loadEvents (img : List Byte) (a : Nat) (s : State) (h : s.status = .idle)
    (hl : a + img.length ≤ memSize) :
    s.hostEvents (loadEvents a img) = { s with mem := (s.hostEvents (loadEvents a img)).mem } ∧
    (∀ n, n < a → (s.hostEvents (loadEvents a img)).mem.read n = s.mem.read n) ∧
    (∀ n, a ≤ n → (s.hostEvents (loadEvents a img)).mem.read n = (img[n - a]?).getD (s.mem.read n)) := by
  induction img generalizing a s with
  | nil => simp [loadEvents, State.hostEvents]
  | cons v img ih =>
    simp only [List.length_cons, memSize] at hl ih
    have e : s.hostEvents (loadEvents a (v :: img)) =
        (s.memWrite (BitVec.ofNat 8 a) v).hostEvents (loadEvents (a + 1) img) := by
      simp [loadEvents, State.hostEvents, State.hostEvent, h]
    obtain ⟨frame, below, above⟩ := ih (a + 1) (s.memWrite (BitVec.ofNat 8 a) v) h (by omega)
    have ha : a % 256 = a := Nat.mod_eq_of_lt (by omega)
    rw [e]
    refine ⟨frame, ?_, ?_⟩
    · intro n hn
      have hne : n ≠ a := by omega
      rw [below n (by omega)]
      simp [ha, hne]
    · intro n hn
      by_cases hna : n = a
      · subst hna
        rw [below n (by omega)]
        simp [ha]
      · have hk : n - a = (n - (a + 1)) + 1 := by omega
        rw [above n (by omega), hk, List.getElem?_cons_succ]
        simp [ha, hna]

end Sys2Proof.Machine
end

