-- ==== Sys2Proof/Laws/PerInstr.lean ====
section
/-! SUPPORT. Statements for all instructions, one lemma for each constructor. `EncodedBytes` is about the instruction as
syntax: its bytes are its row's opcode byte and then exactly the operand bytes its row counts (30_encoding.md R80). -/
namespace Sys2Proof.Laws

/-- The bytes of `i` begin with the opcode byte of its row, there are as many as its row's length, and the instruction is
the one its row makes of them. -/
def EncodedBytes.Statement (i : Instr) : Prop :=
  ∀ c : Config, (encode c i).head? = some (c.opcode i.mnemonic) ∧ (encode c i).length = i.mnemonic.length ∧
    decodeOperands i.mnemonic (encode c i).tail = some (i, [])

theorem EncodedBytes.hlt : EncodedBytes.Statement .hlt := fun _ => ⟨rfl, rfl, rfl⟩
theorem EncodedBytes.ldi (r imm : Byte) : EncodedBytes.Statement (.ldi r imm) := fun _ => ⟨rfl, rfl, rfl⟩
theorem EncodedBytes.prn (r : Byte) : EncodedBytes.Statement (.prn r) := fun _ => ⟨rfl, rfl, rfl⟩
theorem EncodedBytes.mul (ra rb : Byte) : EncodedBytes.Statement (.mul ra rb) := fun _ => ⟨rfl, rfl, rfl⟩
theorem EncodedBytes.add (ra rb : Byte) : EncodedBytes.Statement (.add ra rb) := fun _ => ⟨rfl, rfl, rfl⟩
theorem EncodedBytes.push (r : Byte) : EncodedBytes.Statement (.push r) := fun _ => ⟨rfl, rfl, rfl⟩
theorem EncodedBytes.pop (r : Byte) : EncodedBytes.Statement (.pop r) := fun _ => ⟨rfl, rfl, rfl⟩
theorem EncodedBytes.call (r : Byte) : EncodedBytes.Statement (.call r) := fun _ => ⟨rfl, rfl, rfl⟩
theorem EncodedBytes.ret : EncodedBytes.Statement .ret := fun _ => ⟨rfl, rfl, rfl⟩
theorem EncodedBytes.cmp (ra rb : Byte) : EncodedBytes.Statement (.cmp ra rb) := fun _ => ⟨rfl, rfl, rfl⟩
theorem EncodedBytes.jmp (r : Byte) : EncodedBytes.Statement (.jmp r) := fun _ => ⟨rfl, rfl, rfl⟩
theorem EncodedBytes.jeq (r : Byte) : EncodedBytes.Statement (.jeq r) := fun _ => ⟨rfl, rfl, rfl⟩
theorem EncodedBytes.jne (r : Byte) : EncodedBytes.Statement (.jne r) := fun _ => ⟨rfl, rfl, rfl⟩

end Sys2Proof.Laws
end

