-- ==== Sys2Proof/Laws/Run.lean ====
section
/-! SUPPORT. What one unit of fuel does, and when a status answers. -/
namespace Sys2Proof.Machine

/-- A status answers exactly when it is terminal (40_loop_and_data.md R116), and then with the state itself. -/
theorem State.runAnswer_eq_ended {s t : State} :
    s.runAnswer = .ended t ↔ s = t ∧ (s.status = .halt ∨ ∃ record, s.status = .fault record) := by
  unfold State.runAnswer
  split <;> simp [*]

@[simp] theorem runFor_zero (c : Config) (s : State) : runFor c 0 s = s.runAnswer := rfl

/-- Fuel spent on a step. -/
theorem runFor_succ_of_next {c : Config} {s t : State} (fuel : Nat) (h : stepWith c s = .next t) :
    runFor c (fuel + 1) s = runFor c fuel t := by
  simp only [runFor, h]

/-- Where there is no step, no amount of fuel matters. -/
theorem runFor_of_no_step {c : Config} {s : State} (fuel : Nat) (h : ∀ t, stepWith c s ≠ .next t) :
    runFor c fuel s = s.runAnswer := by
  cases fuel with
  | zero => rfl
  | succ fuel =>
    unfold runFor
    split
    · rename_i t ht
      exact absurd ht (h t)
    · rfl
    · rfl

end Sys2Proof.Machine
end

