-- ==== Sys2Proof/Laws/Step.lean ====
section
/-! SUPPORT. Everything a step can do, said once, and what fetching reads. -/
namespace Sys2Proof.Machine

/-- The bytes after the opcode: none, one or two, as far as memory goes (20_memory.md R50). -/
theorem operandBytes_cases (s : State) :
    (256 ≤ s.pc.toNat + 1 ∧ s.operandBytes = []) ∨
    (s.pc.toNat + 1 = 255 ∧ s.operandBytes = [s.mem.read (s.pc.toNat + 1)]) ∨
    (s.pc.toNat + 2 < 256 ∧
      s.operandBytes = [s.mem.read (s.pc.toNat + 1), s.mem.read (s.pc.toNat + 2)]) := by
  by_cases h1 : s.pc.toNat + 1 < memSize
  · by_cases h2 : s.pc.toNat + 1 + 1 < memSize
    · refine .inr (.inr ⟨h2, ?_⟩)
      simp only [State.operandBytes, Memory.bytesFrom, h1, h2, if_true]
    · have := s.pc.isLt
      simp only [memSize] at h1 h2
      refine .inr (.inl ⟨by omega, ?_⟩)
      simp only [State.operandBytes, Memory.bytesFrom, memSize, h1, h2, if_true, if_false]
  · refine .inl ⟨Nat.le_of_not_lt h1, ?_⟩
    simp only [State.operandBytes, Memory.bytesFrom, h1, if_false]

/-- A format that needs an operand byte past 255 has none to decode (40_loop_and_data.md R113). -/
theorem decodeOperands_none {m : Mnemonic} {s : State} :
    decodeOperands m s.operandBytes = none ↔ 256 ≤ s.pc.toNat + m.operandCount := by
  have hp : s.pc.toNat < 256 := s.pc.isLt
  rcases operandBytes_cases s with ⟨h, e⟩ | ⟨h, e⟩ | ⟨h, e⟩ <;> rw [e] <;> cases m <;>
    simp [decodeOperands, Mnemonic.format, Mnemonic.operandCount, Format.operandCount] <;> omega

/-- The operands decoded are the bytes at `p + 1` and `p + 2` (20_memory.md R52). -/
theorem decodeOperands_some {m : Mnemonic} {s : State} {i : Instr} {rest : List Byte}
    (h : decodeOperands m s.operandBytes = some (i, rest)) :
    i = m.withOperands (s.mem.read (s.pc.toNat + 1)) (s.mem.read (s.pc.toNat + 2)) := by
  rcases operandBytes_cases s with ⟨-, e⟩ | ⟨-, e⟩ | ⟨-, e⟩ <;> rw [e] at h <;> cases m <;>
    simp [decodeOperands, Mnemonic.format, Mnemonic.withOperands] at h ⊢ <;> simp [← h.1]

/-- An operand byte past 255 means `need` is past 255 (40_loop_and_data.md R113). -/
theorem need_of_missing {m : Mnemonic} {s : State} (h : 256 ≤ s.pc.toNat + m.operandCount) : 256 ≤ need m s := by
  cases m <;>
    simp only [Mnemonic.operandCount, Mnemonic.format, Format.operandCount] at h <;>
    simp only [need] <;> (try split) <;> omega

/-- Latching the opcode changes no address. -/
theorem need_latchOpcode (m : Mnemonic) (s : State) : need m s.latchOpcode = need m s := by cases m <;> rfl

/-- The four things a running core's step can do: meet a byte that is no opcode, miss an operand byte, or execute the
instruction made of the bytes at `pc`. -/
inductive Steps (c : Config) (s : State) : State → Prop
  | unknown : (∀ m, c.opcode m ≠ s.mem.read s.pc.toNat) → Steps c s (s.latchOpcode.takeFault .decode)
  | missing (m : Mnemonic) : c.opcode m = s.mem.read s.pc.toNat → 256 ≤ s.pc.toNat + m.operandCount →
      256 ≤ need m s → Steps c s (s.latchOpcode.takeFault (.address (need m s)))
  | executes (m : Mnemonic) (t : State) : c.opcode m = s.mem.read s.pc.toNat → s.pc.toNat + m.operandCount < 256 →
      Executes (m.withOperands (s.mem.read (s.pc.toNat + 1)) (s.mem.read (s.pc.toNat + 2))) s.latchOpcode t →
      Steps c s t

/-- The step of a running core as a function of the row its opcode selects. -/
theorem runStep_steps (c : Config) (s : State) : ∃ t, runStep c s = .next t ∧ Steps c s t := by
  unfold runStep
  rw [State.latchOpcode_ir]
  cases hl : lookupOpcode c (s.mem.read s.pc.toNat) with
  | none => exact ⟨_, rfl, .unknown (lookupOpcode_none.mp hl)⟩
  | some m =>
    have hm := lookupOpcode_some hl
    cases hd : decodeOperands m s.operandBytes with
    | none =>
      have hp := decodeOperands_none.mp hd
      refine ⟨_, ?_, .missing m hm hp (need_of_missing hp)⟩
      simp only [hd, need_latchOpcode]
    | some p =>
      obtain ⟨i, rest⟩ := p
      have hp : s.pc.toNat + m.operandCount < 256 := by
        by_contra hc
        rw [decodeOperands_none.mpr (by omega)] at hd
        cases hd
      obtain ⟨t, ht, he⟩ := exec_executes i s.latchOpcode
      refine ⟨t, ?_, .executes m t hm hp (decodeOperands_some hd ▸ he)⟩
      simp only [hd, ht]

/-- THE INVERSION LEMMA OF THE STEP: a step that answers a next state was taken in RUN and did one of these. -/
theorem steps_of_stepWith {c : Config} {s t : State} (h : stepWith c s = .next t) :
    s.status = .run ∧ Steps c s t := by
  unfold stepWith at h
  split at h
  · rename_i hs
    obtain ⟨u, hu, he⟩ := runStep_steps c s
    rw [h] at hu
    cases hu
    exact ⟨hs, he⟩
  all_goals cases h

/-- In RUN the step is the running step. -/
theorem stepWith_run {c : Config} {s : State} (h : s.status = .run) : stepWith c s = runStep c s := by
  simp only [stepWith, h]

/-- The fixed step is the step under the default opcode map. -/
theorem step_eq (s : State) : step s = stepWith defaultConfig s := rfl

end Sys2Proof.Machine
end

