-- ==== Sys2Proof/Machine/Loader.lean ====
section
/-! DEFINITION. What stands beside the core and is modelled all the same: the Loader's program file format (30_encoding.md
R94), the Reporter's text of an emitted value (40_loop_and_data.md R121), both outside the core (00_scope.md R4 (a), (d)),
and the reading back of memory as instructions and their assembly notation (30_encoding.md R95, R93). -/
namespace Sys2Proof.Machine

/-- White space allowed around a binary literal on a line. DESIGN CHOICE (log 12): R94 does not say which. -/
def blankChar (ch : Char) : Bool := ch == ' ' || ch == '\t' || ch == '\r'

/-- Split a text at line feeds. DESIGN CHOICE (log 12): R94 says only "each line"; here a line ends at a line feed alone, and a
carriage return is white space within its line. -/
def splitLines : List Char → List (List Char)
  | [] => [[]]
  | ch :: rest =>
    match splitLines rest with
    | [] => [[ch]]
    | line :: lines => if ch == '\n' then [] :: line :: lines else (ch :: line) :: lines

/-- The part of a line before its comment, without the white space around it (R94). -/
def lineContent (line : List Char) : List Char :=
  (((line.takeWhile (· != '#')).dropWhile blankChar).reverse.dropWhile blankChar).reverse

/-- The value of a binary literal, its leftmost character the most significant bit; none for another character (R94). -/
def binaryValue (acc : Nat) : List Char → Option Nat
  | [] => some acc
  | ch :: rest =>
    if ch = '0' then binaryValue (2 * acc) rest
    else if ch = '1' then binaryValue (2 * acc + 1) rest
    else none

/-- What a line of the file says: nothing, a byte, or it is malformed (R94). -/
inductive LineMeaning
  | skipped
  | byte (v : Byte)
  | malformed
  deriving DecidableEq, Repr

/-- The meaning of one line: blank and comment-only lines are skipped, a literal is exactly eight 0/1 characters, and any
other content before the comment is malformed (R94; 90_conflicts.md C8). -/
def lineMeaning (line : List Char) : LineMeaning :=
  match lineContent line with
  | [] => .skipped
  | ch :: rest =>
    if (ch :: rest).length = 8 then
      match binaryValue 0 (ch :: rest) with
      | some n => .byte (BitVec.ofNat 8 n)
      | none => .malformed
    else .malformed

/-- The bytes of the lines in file order; none as soon as one line is malformed (R94). -/
def imageOfLines : List (List Char) → Option (List Byte)
  | [] => some []
  | line :: lines =>
    match lineMeaning line with
    | .skipped => imageOfLines lines
    | .byte v => (imageOfLines lines).map (v :: ·)
    | .malformed => none

/-- The image of a program file, or none if the load fails (R94, R244, R246). -/
def loadFile (text : List Char) : Option (List Byte) :=
  match imageOfLines (splitLines text) with
  | some img => if img.length ≤ memSize then some img else none
  | none => none

/-- The Reporter's line for an emitted value: its decimal digits without leading zeros and one line feed (R121). -/
def reportLine (v : Byte) : List Char := Nat.toDigits 10 v.toNat ++ ['\n']

/-- The Reporter's text of an output log. -/
def reportText (out : List Byte) : List Char := out.flatMap reportLine

/-- What reading an encoding back finds at an address (30_encoding.md R95). -/
inductive Disassembly
  /-- An opcode with its operand bytes, and the number of the cell where the next instruction starts. -/
  | instruction (i : Instr) (next : Nat)
  /-- An opcode some of whose operand bytes would lie past 255; `next` is `p + 1 + operand count` all the same. -/
  | cutOff (m : Mnemonic) (next : Nat)
  /-- Data or an illegal opcode. -/
  | notAnOpcode (v : Byte)
  deriving DecidableEq, Repr

/-- Reading an encoding back at address `p` (R95): `mem[p]` is looked up in the opcode table; if found, the instruction takes
`p` to `p + operand count` and the next one starts after it, whether or not those cells exist. A function of memory and
`p` only. -/
def disassembleAt (c : Config) (m : Memory) (p : Byte) : Disassembly :=
  match lookupOpcode c (m.read p.toNat) with
  | none => .notAnOpcode (m.read p.toNat)
  | some row =>
    match decodeOperands row (m.bytesFrom (p.toNat + 1) row.operandCount) with
    | some (i, _) => .instruction i (p.toNat + row.length)
    | none => .cutOff row (p.toNat + row.length)

/-- The mnemonic in capitals, as the opcode table writes it (R85, R93). -/
def mnemonicText : Mnemonic → List Char
  | .hlt => ['H', 'L', 'T']
  | .ldi => ['L', 'D', 'I']
  | .prn => ['P', 'R', 'N']
  | .mul => ['M', 'U', 'L']
  | .add => ['A', 'D', 'D']
  | .push => ['P', 'U', 'S', 'H']
  | .pop => ['P', 'O', 'P']
  | .call => ['C', 'A', 'L', 'L']
  | .ret => ['R', 'E', 'T']
  | .cmp => ['C', 'M', 'P']
  | .jmp => ['J', 'M', 'P']
  | .jeq => ['J', 'E', 'Q']
  | .jne => ['J', 'N', 'E']

/-- `R0` to `R7`, never `SP` (R93). -/
def registerText (v : Byte) : List Char := 'R' :: Nat.toDigits 10 v.toNat

/-- The assembly notation of an instruction (R93): the mnemonic, then the operands separated by commas, an immediate in
decimal; none if a register operand byte names no register, which the notation cannot write. -/
def assemblyText (i : Instr) : Option (List Char) :=
  if i.wellFormed then
    match i.regOperands, i with
    | [r], .ldi _ imm =>
      some (mnemonicText i.mnemonic ++ [' '] ++ registerText r ++ [',', ' '] ++ Nat.toDigits 10 imm.toNat)
    | [r], _ => some (mnemonicText i.mnemonic ++ [' '] ++ registerText r)
    | [a, b], _ => some (mnemonicText i.mnemonic ++ [' '] ++ registerText a ++ [',', ' '] ++ registerText b)
    | _, _ => some (mnemonicText i.mnemonic)
  else none

end Sys2Proof.Machine
end

