-- ==== Sys2Proof/Tests/Slice0.lean ====
section
/-! SUPPORT. Tests and witnesses. Expected results come from spec/: the encodings of 30_encoding.md, the vectors V and F of
95_test_vectors.md, and the examples of 30_encoding.md R94 and 40_loop_and_data.md R121. Each `witness_` theorem shows
concrete states and operands that meet the hypotheses of the obligation it is named after, clause by clause. -/
namespace Sys2Proof.Tests

open Sys2Proof Sys2Proof.Machine

/-! ### Well-formedness: an ill-formed term for each check, refused, and the greatest register accepted -/

theorem test_wellFormed_register_7 : (Instr.add 7 7).wellFormed = true := by decide
theorem test_illFormed_format_R : (Instr.prn 8).wellFormed = false := by decide
theorem test_illFormed_format_RI : (Instr.ldi 8 0).wellFormed = false := by decide
theorem test_illFormed_format_RR_first : (Instr.mul 255 0).wellFormed = false := by decide
theorem test_illFormed_format_RR_second : (Instr.cmp 0 8).wellFormed = false := by decide
theorem test_immediate_is_not_checked : (Instr.ldi 0 255).wellFormed = true := by decide

/-! ### Decoding, one word for each constructor, written out bit by bit from R81 to R85 -/

theorem test_decode_hlt : decode defaultConfig [0b00000001] = .ok .hlt [] := by decide
theorem test_decode_ldi : decode defaultConfig [0b10000010, 0b00000101, 0b11001000] = .ok (.ldi 5 200) [] := by decide
theorem test_decode_prn : decode defaultConfig [0b01000111, 0b00000110] = .ok (.prn 6) [] := by decide
theorem test_decode_mul : decode defaultConfig [0b10100010, 0b00000001, 0b00000010] = .ok (.mul 1 2) [] := by decide
theorem test_decode_add : decode defaultConfig [0b10100000, 0b00000011, 0b00000100] = .ok (.add 3 4) [] := by decide
theorem test_decode_push : decode defaultConfig [0b01000101, 0b00000111] = .ok (.push 7) [] := by decide
theorem test_decode_pop : decode defaultConfig [0b01000110, 0b00000010] = .ok (.pop 2) [] := by decide
theorem test_decode_call : decode defaultConfig [0b01010000, 0b00000001] = .ok (.call 1) [] := by decide
theorem test_decode_ret : decode defaultConfig [0b00010001, 0xAA] = .ok .ret [0xAA] := by decide
theorem test_decode_cmp : decode defaultConfig [0b10100111, 0b00000000, 0b00000111] = .ok (.cmp 0 7) [] := by decide
theorem test_decode_jmp : decode defaultConfig [0b01010100, 0b00000011] = .ok (.jmp 3) [] := by decide
theorem test_decode_jeq : decode defaultConfig [0b01010101, 0b00000010] = .ok (.jeq 2) [] := by decide
theorem test_decode_jne : decode defaultConfig [0b01010110, 0b00000100] = .ok (.jne 4) [] := by decide

/-- R88: 0x00 is unrecognised; R89: 0xA1, SUB elsewhere in the family, is too. -/
theorem test_decode_unknown :
    decode defaultConfig [0x00] = .rejected (.unknownOpcode 0x00) ∧
    decode defaultConfig [0xA1, 0, 1] = .rejected (.unknownOpcode 0xA1) := by decide

theorem test_decode_missing : decode defaultConfig [0x82, 0x00] = .rejected (.missingOperand .ldi) := by decide

/-! ### One step, from the vectors of 95_test_vectors.md -/

/-- A running core with launch values but for `x`, `fl` and extra cells, the given bytes at `p`, and `pc` there. -/
def vec (p : Byte) (bytes : List Byte) (x : RegFile := RegFile.reset) (fl : Byte := 0)
    (cells : List (Nat × Byte) := []) : State :=
  { State.reset with
    x := x, pc := p, fl := fl, status := .run,
    mem := Memory.putBytes (cells.foldl (fun m c => m.write c.1 c.2) []) p.toNat bytes }

/-- The next state of a step, if there is one. -/
def stepped (s : State) : Option State :=
  match step s with
  | .next t => some t
  | .fault _ => none
  | .refused _ => none

/-- `s` after a step that faulted with this record (R204). -/
def failed (s : State) (cause : FaultCause) (op : Byte) : State :=
  { s with ir := op, status := .fault { cause := cause, opcode := op, pc := s.pc } }

theorem test_hlt_V12 : let s := vec 0xFF [0x01]
    stepped s = some { s with ir := 0x01, status := .halt } := by decide

theorem test_unknown_F4 : let s := vec 0x00 [0xA1, 0x00, 0x01] ⟨9, 4, 0, 0, 0, 0, 0, 0xF4⟩
    stepped s = some (failed s .decode 0xA1) := by decide

theorem test_ldi_V3 : let s := vec 0x00 [0x82, 0x07, 0x80]
    stepped s = some { s with ir := 0x82, x := { s.x with r7 := 0x80 }, pc := 0x03 } := by decide

theorem test_ldi_F10 : let s := vec 0xFD [0x82, 0x00, 0x05]
    stepped s = some (failed s (.address 256) 0x82) := by decide

theorem test_prn_V8 : let s := vec 0x00 [0x47, 0x07]
    stepped s = some { s with ir := 0x47, out := [244], pc := 0x02 } := by decide

theorem test_prn_F44 : let s := vec 0xFE [0x47, 0x09]
    stepped s = some (failed s (.address 256) 0x47) := by decide

theorem test_add_V24 : let s := vec 0x00 [0xA0, 0x07, 0x00] ⟨0xFF, 0, 0, 0, 0, 0, 0, 0xF4⟩
    stepped s = some { s with ir := 0xA0, x := { s.x with r7 := 0xF3 }, pc := 0x03 } := by decide

theorem test_add_F34 : let s := vec 0x00 [0xA0, 0x09, 0x0A]
    stepped s = some (failed s (.registerIndex 9) 0xA0) := by decide

theorem test_mul_V31 : let s := vec 0x00 [0xA2, 0x05, 0x05] ⟨0, 0, 0, 0, 0, 0x0F, 0, 0xF4⟩
    stepped s = some { s with ir := 0xA2, x := { s.x with r5 := 0xE1 }, pc := 0x03 } := by decide

theorem test_mul_F26 : let s := vec 0xFE [0xA2, 0x00]
    stepped s = some (failed s (.address 257) 0xA2) := by decide

theorem test_cmp_V37 : let s := vec 0x00 [0xA7, 0x00, 0x01] ⟨0x80, 0x7F, 0, 0, 0, 0, 0, 0xF4⟩
    stepped s = some { s with ir := 0xA7, fl := 0x02, pc := 0x03 } := by decide

theorem test_cmp_F36 : let s := vec 0x00 [0xA7, 0x01, 0x80] RegFile.reset 0x02
    stepped s = some (failed s (.registerIndex 128) 0xA7) := by decide

theorem test_push_V51 : let s := vec 0x00 [0x45, 0x00] ⟨0xAB, 0, 0, 0, 0, 0, 0, 0x00⟩
    stepped s = some { s with ir := 0x45, x := { s.x with r7 := 0xFF }, mem := [(0, 0x45), (255, 0xAB)], pc := 0x02 } := by
  decide

theorem test_push_V52 : let s := vec 0x00 [0x45, 0x07]
    stepped s = some { s with ir := 0x45, x := { s.x with r7 := 0xF3 }, mem := s.mem.write 0xF3 0xF3, pc := 0x02 } := by
  decide

theorem test_pop_V56 : let s := vec 0x00 [0x46, 0x00] ⟨0, 0, 0, 0, 0, 0, 0, 0xFF⟩ 0 [(0xFF, 0x07)]
    stepped s = some { s with ir := 0x46, x := ⟨0x07, 0, 0, 0, 0, 0, 0, 0x00⟩, pc := 0x02 } := by decide

theorem test_pop_V58 : let s := vec 0x00 [0x46, 0x07] ⟨0, 0, 0, 0, 0, 0, 0, 0xF3⟩ 0 [(0xF3, 0x20)]
    stepped s = some { s with ir := 0x46, x := { s.x with r7 := 0x21 }, pc := 0x02 } := by decide

theorem test_call_V62 : let s := vec 0x00 [0x50, 0x07]
    stepped s = some { s with ir := 0x50, x := { s.x with r7 := 0xF3 }, mem := s.mem.write 0xF3 0x02, pc := 0xF3 } := by
  decide

theorem test_call_F16 : let s := vec 0xFE [0x50, 0x01] ⟨0, 0x10, 0, 0, 0, 0, 0, 0xF4⟩
    stepped s = some (failed s (.address 256) 0x50) := by decide

theorem test_ret_V67 : let s := vec 0x00 [0x11] ⟨0, 0, 0, 0, 0, 0, 0, 0xFF⟩ 0 [(0xFF, 0x30)]
    stepped s = some { s with ir := 0x11, x := { s.x with r7 := 0x00 }, pc := 0x30 } := by decide

theorem test_ret_V69 : let s := vec 0x05 [0x11] ⟨0, 0, 0, 0, 0, 0, 0, 0xF0⟩ 0x01 [(0xF0, 0xFF)]
    stepped s = some { s with ir := 0x11, x := { s.x with r7 := 0xF1 }, pc := 0xFF } := by decide

theorem test_jmp_V83 : let s := vec 0x00 [0x54, 0x07]
    stepped s = some { s with ir := 0x54, pc := 0xF4 } := by decide

theorem test_jmp_F18 : let s := vec 0xFF [0x54]
    stepped s = some (failed s (.address 256) 0x54) := by decide

theorem test_jeq_V89 : let s := vec 0xFE [0x55, 0x02] ⟨0, 0, 0x16, 0, 0, 0, 0, 0xF4⟩ 0x01
    stepped s = some { s with ir := 0x55, pc := 0x16 } := by decide

theorem test_jeq_F21 : let s := vec 0xFF [0x55] RegFile.reset 0x04
    stepped s = some (failed s (.address 257) 0x55) := by decide

theorem test_jne_V94 : let s := vec 0x14 [0x56, 0x03] ⟨0, 0, 0, 0x0C, 0, 0, 0, 0xF4⟩ 0x01
    stepped s = some { s with ir := 0x56, pc := 0x16 } := by decide

theorem test_jne_F23 : let s := vec 0xFF [0x56]
    stepped s = some (failed s (.address 256) 0x56) := by decide

/-- The first instruction after reset, placed as a table word: LDI R3, 0xFF (V2's operands at address 0). -/
theorem test_withFetchWord :
    (stepped (State.reset.withFetchWord 24 0xFF0382)).map (fun t => (t.x.r3, t.pc, t.status)) =
      some (0xFF, 0x03, .run) := by decide

/-- The start of program P1's Loader file (95_test_vectors.md) gives P1's first bytes: comment and blank lines are skipped. -/
theorem test_loadFile_P1 :
    loadFile "# print8\n10000010 # LDI R0,8\n00000000\n\n00001000\n".toList = some [0x82, 0x00, 0x08] := by decide

/-- A line with content that is no binary literal is fatal at load time (R94). -/
theorem test_loadFile_malformed : loadFile "10000010\nLDI\n".toList = none := by decide

/-- R121's own examples: 8, 0 and 200. -/
theorem test_reportText : reportText [8, 0, 200] = "8\n0\n200\n".toList := by decide

/-- R93's own spellings, and a register byte the notation has no name for. -/
theorem test_assemblyText :
    [Instr.hlt, .ldi 0 8, .cmp 0 1, .call 1].map assemblyText =
      ["HLT", "LDI R0, 8", "CMP R0, R1", "CALL R1"].map (fun t => some t.toList) ∧
    assemblyText (.prn 8) = none := by decide

/-- Memory read back (R95): P1's LDI at 0 takes cells 0 to 2 (95_test_vectors.md), cell 1 is data, and a JMP opcode at 255 is
found although its operand would lie past 255. -/
theorem test_disassembleAt :
    let m := (Memory.putBytes [] 0 [0x82, 0x00, 0x08]).write 255 0x54
    disassembleAt defaultConfig m 0 = .instruction (.ldi 0 8) 3 ∧
    disassembleAt defaultConfig m 1 = .notAnOpcode 0x00 ∧
    disassembleAt defaultConfig m 255 = .cutOff .jmp 257 := by decide

/-- A run that ends at its first step, and R122's shortest loop, `LDI R0, 3` with `JMP R0` at 3, which three steps leave
without an answer. -/
theorem test_runFor :
    (∃ t, runImage defaultConfig 1 [0x01] = some (.ended t) ∧ t.status = .halt) ∧
    runImage defaultConfig 0 [0x01] = some .noAnswer ∧
    runImage defaultConfig 3 [0x82, 0x00, 0x03, 0x54, 0x00] = some .noAnswer :=
  ⟨⟨_, rfl, rfl⟩, by decide, by decide⟩

/-! ### Witnesses -/

/-- A running core with launch values and `pc` at `p`. -/
def runAt (p : Byte) : State := vec p []

theorem no_opcode_0 : ∀ m : Mnemonic, defaultConfig.opcode m ≠ 0 := by
  intro m
  cases m <;> decide

theorem witness_DecodedBytesAreTheEncoding : decode defaultConfig [0x82, 0xFF, 0x00, 0x07] = .ok (.ldi 0xFF 0) [0x07] := by
  decide

theorem witness_LdiLoadsTheImmediate :
    253 ≤ (runAt 253).pc.toNat ∧ ((runAt 252).pc.toNat < 253 ∧ 8 ≤ (8 : Byte).toNat) ∧
    ((runAt 252).pc.toNat < 253 ∧ (7 : Byte).toNat = (7 : Reg).val) := by decide

theorem witness_PrnEmitsTheRegister :
    254 ≤ (runAt 254).pc.toNat ∧ ((runAt 253).pc.toNat < 254 ∧ 8 ≤ (8 : Byte).toNat) ∧
    ((runAt 253).pc.toNat < 254 ∧ (7 : Byte).toNat = (7 : Reg).val) := by decide

theorem witness_AddAddsModulo256 :
    253 ≤ (runAt 253).pc.toNat ∧ ((runAt 252).pc.toNat < 253 ∧ 8 ≤ (8 : Byte).toNat) ∧
    ((runAt 252).pc.toNat < 253 ∧ (7 : Byte).toNat < 8 ∧ 8 ≤ (255 : Byte).toNat) ∧
    ((runAt 252).pc.toNat < 253 ∧ (7 : Byte).toNat = (7 : Reg).val ∧ (0 : Byte).toNat = (0 : Reg).val) := by decide

theorem witness_MulMultipliesModulo256 :
    253 ≤ (runAt 255).pc.toNat ∧ ((runAt 252).pc.toNat < 253 ∧ 8 ≤ (8 : Byte).toNat) ∧
    ((runAt 252).pc.toNat < 253 ∧ (0 : Byte).toNat < 8 ∧ 8 ≤ (8 : Byte).toNat) ∧
    ((runAt 252).pc.toNat < 253 ∧ (7 : Byte).toNat = (7 : Reg).val ∧ (7 : Byte).toNat = (7 : Reg).val) := by decide

theorem witness_CmpSetsExactlyOneFlag :
    253 ≤ (runAt 253).pc.toNat ∧ ((runAt 252).pc.toNat < 253 ∧ 8 ≤ (8 : Byte).toNat) ∧
    ((runAt 252).pc.toNat < 253 ∧ (7 : Byte).toNat < 8 ∧ 8 ≤ (8 : Byte).toNat) ∧
    ((runAt 252).pc.toNat < 253 ∧ (7 : Byte).toNat = (7 : Reg).val ∧ (0 : Byte).toNat = (0 : Reg).val) ∧
    ((runAt 0).x.get 0).toNat = ((runAt 0).x.get 1).toNat ∧ ((runAt 0).x.get 0).toNat < ((runAt 0).x.get 7).toNat := by
  decide

theorem witness_PushStoresBelowTheStack :
    254 ≤ (runAt 254).pc.toNat ∧ ((runAt 253).pc.toNat < 254 ∧ 8 ≤ (8 : Byte).toNat) ∧
    ((runAt 253).pc.toNat < 254 ∧ (7 : Byte).toNat = (7 : Reg).val) := by decide

theorem witness_PopLoadsFromTheStack :
    254 ≤ (runAt 254).pc.toNat ∧ ((runAt 253).pc.toNat < 254 ∧ 8 ≤ (8 : Byte).toNat) ∧
    ((runAt 253).pc.toNat < 254 ∧ (6 : Byte).toNat = (6 : Reg).val ∧ (6 : Reg) ≠ spIndex) ∧
    ((runAt 253).pc.toNat < 254 ∧ (7 : Byte).toNat = (7 : Reg).val ∧ (7 : Reg) = spIndex) := by decide

theorem witness_CallPushesTheReturnAddress :
    254 ≤ (runAt 254).pc.toNat ∧ ((runAt 253).pc.toNat < 254 ∧ 8 ≤ (8 : Byte).toNat) ∧
    ((runAt 253).pc.toNat < 254 ∧ (7 : Byte).toNat = (7 : Reg).val) := by decide

theorem witness_JmpGoesToTheRegister :
    (runAt 255).pc.toNat = 255 ∧ ((runAt 254).pc.toNat < 255 ∧ 8 ≤ (8 : Byte).toNat) ∧
    ((runAt 254).pc.toNat < 255 ∧ (7 : Byte).toNat = (7 : Reg).val) := by decide

theorem witness_JeqJumpsWhenEqual :
    let taken := fun p => vec p [] RegFile.reset 0x01
    ((taken 255).fl.getLsbD 0 = true ∧ (taken 255).pc.toNat = 255) ∧
    ((runAt 254).fl.getLsbD 0 = false ∧ 254 ≤ (runAt 254).pc.toNat) ∧
    ((taken 254).fl.getLsbD 0 = true ∧ (taken 254).pc.toNat < 255 ∧ 8 ≤ (8 : Byte).toNat) ∧
    ((runAt 253).fl.getLsbD 0 = false ∧ (runAt 253).pc.toNat < 254 ∧ 8 ≤ (8 : Byte).toNat) ∧
    (7 : Byte).toNat = (7 : Reg).val := by decide

theorem witness_JneJumpsWhenNotEqual :
    let equal := fun p => vec p [] RegFile.reset 0x01
    ((runAt 255).fl.getLsbD 0 = false ∧ (runAt 255).pc.toNat = 255) ∧
    ((equal 254).fl.getLsbD 0 = true ∧ 254 ≤ (equal 254).pc.toNat) ∧
    ((runAt 254).fl.getLsbD 0 = false ∧ (runAt 254).pc.toNat < 255 ∧ 8 ≤ (8 : Byte).toNat) ∧
    ((equal 253).fl.getLsbD 0 = true ∧ (equal 253).pc.toNat < 254 ∧ 8 ≤ (8 : Byte).toNat) ∧
    (7 : Byte).toNat = (7 : Reg).val := by decide

/-- Each instruction of the group has a next state that is no fault, at the last address where it completes. -/
theorem witness_RegisterResultFrame :
    (∃ t, exec (.ldi 7 5) (runAt 252) = .next t ∧ t.status = .run) ∧
    (∃ t, exec (.add 7 5) (runAt 252) = .next t ∧ t.status = .run) ∧
    (∃ t, exec (.mul 7 5) (runAt 252) = .next t ∧ t.status = .run) := ⟨⟨_, rfl, rfl⟩, ⟨_, rfl, rfl⟩, ⟨_, rfl, rfl⟩⟩

theorem witness_NoRegisterResultFrame :
    (∃ t, exec .hlt (runAt 255) = .next t ∧ t.status = .halt) ∧
    (∃ t, exec (.prn 7) (runAt 253) = .next t ∧ t.status = .run) ∧
    (∃ t, exec (.cmp 7 0) (runAt 252) = .next t ∧ t.status = .run) ∧
    (∃ t, exec (.jmp 7) (runAt 254) = .next t ∧ t.status = .run) ∧
    (∃ t, exec (.jeq 7) (runAt 253) = .next t ∧ t.status = .run) ∧
    (∃ t, exec (.jne 7) (runAt 254) = .next t ∧ t.status = .run) :=
  ⟨⟨_, rfl, rfl⟩, ⟨_, rfl, rfl⟩, ⟨_, rfl, rfl⟩, ⟨_, rfl, rfl⟩, ⟨_, rfl, rfl⟩, ⟨_, rfl, rfl⟩⟩

theorem witness_StackStoreFrame :
    (∃ t, exec (.push 7) (runAt 253) = .next t ∧ t.status = .run) ∧
    (∃ t, exec (.call 7) (runAt 253) = .next t ∧ t.status = .run) := ⟨⟨_, rfl, rfl⟩, ⟨_, rfl, rfl⟩⟩

theorem witness_StackLoadFrame :
    (∃ t, exec (.pop 7) (runAt 253) = .next t ∧ t.status = .run) ∧
    (∃ t, exec .ret (runAt 255) = .next t ∧ t.status = .run) := ⟨⟨_, rfl, rfl⟩, ⟨_, rfl, rfl⟩⟩

/-- ADD R0, R1 reads R0 and R1 only, so another register file may differ in R2. -/
theorem witness_RegistersReadAndWrittenAsTabled :
    (∃ t, exec (.add 0 1) (runAt 0) = .next t ∧ ¬ t.wentWrong) ∧
    ∀ q, readsReg (runAt 0).fl q (.add 0 1) →
      (RegFile.get ⟨0, 0, 9, 0, 0, 0, 0, 0xF4⟩ q) = (runAt 0).x.get q := by
  refine ⟨⟨_, rfl, ?_⟩, ?_⟩
  · rintro ⟨record, h⟩
    cases h
  · intro q hq
    rcases hq with h | h
    · have e : q = 0 := Fin.ext h.symm
      subst e
      rfl
    · have e : q = 1 := Fin.ext h.symm
      subst e
      rfl

theorem witness_StepRunsTheDecodedInstruction :
    (vec 0xFE [0x54, 0x07]).status = .run ∧
    decode defaultConfig (vec 0xFE [0x54, 0x07]).fetchBytes = .ok (.jmp 7) [] := by decide

theorem witness_OpcodeByteSelectsOrFaults :
    (runAt 0).status = .run ∧
    ((vec 0xFD [0x82, 0x00, 0x05]).mem.read (vec 0xFD [0x82, 0x00, 0x05]).pc.toNat = defaultConfig.opcode .ldi ∧
      (vec 0xFD [0x82, 0x00, 0x05]).pc.toNat + Mnemonic.operandCount .ldi ≤ 255) ∧
    (∀ m : Mnemonic, (runAt 255).mem.read (runAt 255).pc.toNat ≠ defaultConfig.opcode m) :=
  ⟨rfl, by decide, fun m e => no_opcode_0 m e.symm⟩

theorem witness_StepFaultsInPriorityOrder :
    (∀ m : Mnemonic, defaultConfig.opcode m ≠ (runAt 255).mem.read (runAt 255).pc.toNat) ∧
    (let s := vec 0xFF [0x54];
      defaultConfig.opcode .jmp = s.mem.read s.pc.toNat ∧ 256 ≤ need .jmp s) ∧
    (let s := vec 0xFD [0x47, 0x08];
      defaultConfig.opcode .prn = s.mem.read s.pc.toNat ∧ need .prn s < 256 ∧ Mnemonic.format .prn ≠ .z ∧
      8 ≤ (s.mem.read (s.pc.toNat + 1)).toNat) ∧
    (let s := vec 0xFC [0xA0, 0x07, 0x08];
      defaultConfig.opcode .add = s.mem.read s.pc.toNat ∧ need .add s < 256 ∧ Mnemonic.format .add = .rr ∧
      (s.mem.read (s.pc.toNat + 1)).toNat < 8 ∧ 8 ≤ (s.mem.read (s.pc.toNat + 2)).toNat) ∧
    (let s := vec 0xFC [0xA0, 0x07, 0x07];
      defaultConfig.opcode .add = s.mem.read s.pc.toNat ∧ need .add s < 256 ∧
      (s.mem.read (s.pc.toNat + 1)).toNat < 8 ∧ (s.mem.read (s.pc.toNat + 2)).toNat < 8) :=
  ⟨no_opcode_0, by decide, by decide, by decide, by decide⟩

theorem witness_FaultsArePrecise :
    let s := vec 0xFE [0x47, 0x09]
    ∃ t record, stepWith defaultConfig s = .next t ∧ t.status = .fault record := ⟨_, _, rfl, rfl⟩

theorem witness_StepIsDefinedExactlyInRun :
    (runAt 0).status = .run ∧ State.reset.status = .idle ∧ (State.reset.setStatus .halt).status = .halt ∧
    ∃ record, ((runAt 0).faulted .decode).status = .fault record := ⟨rfl, rfl, rfl, _, rfl⟩

theorem witness_StatusTransitionsOfAStep :
    (∃ t, stepWith defaultConfig (vec 0xFF [0x01]) = .next t ∧ t.status = .halt) ∧
    (∃ t, stepWith defaultConfig (vec 0xFF [0x11]) = .next t ∧ t.status = .run) := ⟨⟨_, rfl, rfl⟩, ⟨_, rfl, rfl⟩⟩

theorem witness_OnlyResetLeavesATerminalStatus :
    ((runAt 0).faulted .decode).wentWrong ∧ ((runAt 0).setStatus .halt).completed := ⟨⟨_, rfl⟩, rfl⟩

theorem witness_AluMisuseIsUnreachable :
    ∃ t record, stepWith defaultConfig (runAt 255) = .next t ∧ t.status = .fault record := ⟨_, _, rfl, rfl⟩

/-- JEQ with G set, the flags then replaced by L, which agrees on the Equal bit; CMP; and an instruction of neither kind. -/
theorem witness_FlagsWrittenByCmpAndReadThroughEqual :
    (∃ t, exec (.jeq 0) (vec 0xFD [] RegFile.reset 0x02) = .next t ∧
      (0x04 : Byte).getLsbD 0 = (vec 0xFD [] RegFile.reset 0x02).fl.getLsbD 0) ∧
    (∃ t, exec (.cmp 0 7) (runAt 252) = .next t ∧ ¬ t.wentWrong) ∧
    (∃ t, exec (.add 0 7) (runAt 252) = .next t) ∧ (runAt 252).status = .run := by
  refine ⟨⟨_, rfl, by decide⟩, ⟨_, rfl, ?_⟩, ⟨_, rfl⟩, rfl⟩
  rintro ⟨record, h⟩
  cases h

theorem witness_ReachableFlagValues :
    ((runAt 253).fl = 0 ∧ (runAt 253).pc.toNat < 254 ∧ (7 : Byte).toNat = (7 : Reg).val) ∧
    (∃ t, exec (.cmp 0 7) (runAt 252) = .next t ∧ ¬ t.wentWrong) ∧
    (∃ t, stepWith defaultConfig (vec 0xFC [0xA7, 0, 7] RegFile.reset 0x01) = .next t ∧
      (vec 0xFC [0xA7, 0, 7] RegFile.reset 0x01).fl ≠ 0) := by
  refine ⟨by decide, ⟨_, rfl, ?_⟩, ⟨_, rfl, by decide⟩⟩
  rintro ⟨record, h⟩
  cases h

theorem witness_PcAfterEachInstruction :
    (∃ t, exec (.call 7) (runAt 253) = .next t ∧ ¬ t.wentWrong) ∧
    (∃ t, exec (.call 7) (runAt 254) = .next t ∧ t.wentWrong) := by
  refine ⟨⟨_, rfl, ?_⟩, ⟨_, rfl, _, rfl⟩⟩
  rintro ⟨record, h⟩
  cases h

/-- PUSH R7 from launch values changes cell 0xF3 (V52), and CALL R7 does (V62). -/
theorem witness_OnlyPushAndCallWriteMemory :
    (∃ t, stepWith defaultConfig (vec 0 [0x45, 0x07]) = .next t ∧
      t.mem.read 0xF3 ≠ (vec 0 [0x45, 0x07]).mem.read 0xF3) ∧
    (∃ t, stepWith defaultConfig (vec 0 [0x50, 0x07]) = .next t ∧
      t.mem.read 0xF3 ≠ (vec 0 [0x50, 0x07]).mem.read 0xF3) := ⟨⟨_, rfl, by decide⟩, ⟨_, rfl, by decide⟩⟩

theorem witness_OutputLogIsAppendedByPrnAndNeverRead :
    ∃ t, stepWith defaultConfig (vec 0xFD [0x47, 0x07]) = .next t ∧ t.out = [244] := ⟨_, rfl, by decide⟩

theorem witness_OldInstructionRegisterIsNeverRead : (runAt 255).status = .run := rfl

/-- Program P8 of 95_test_vectors.md: SP is 9, PUSH R0 at 6 lands at 8, the next `pc`. -/
theorem witness_PushedByteIsFetchedNext :
    let s := vec 0x06 [0x45, 0x00] ⟨1, 0, 0, 0, 0, 0, 0, 9⟩
    s.status = .run ∧ s.mem.read s.pc.toNat = defaultConfig.opcode .push ∧
    (s.mem.read (s.pc.toNat + 1)).toNat = (0 : Reg).val ∧ s.pc.toNat < 254 ∧
    (s.x.get spIndex - 1).toNat = s.pc.toNat + 2 := by decide

theorem witness_InvariantHoldsAtLaunch : ∃ s, launch [0x01] = some s := ⟨_, rfl⟩

theorem witness_inv : State.Inv defaultConfig (vec 0x00 [0x45, 0x07] RegFile.reset 0x04) :=
  ⟨by decide, by decide, fun _ h => nomatch h⟩

theorem witness_InvariantKeptByEveryStep :
    State.Inv defaultConfig (vec 0x00 [0x45, 0x07] RegFile.reset 0x04) ∧
    ∃ t, step (vec 0x00 [0x45, 0x07] RegFile.reset 0x04) = .next t := ⟨witness_inv, _, rfl⟩

/-- A state that meets the invariant with a fault recorded, which reset leaves. -/
theorem witness_InvariantKeptByHostEvents : State.Inv defaultConfig ((runAt 0).faulted .decode) :=
  ⟨by decide, by decide, fun record h => by
    cases h
    exact ⟨rfl, rfl, no_opcode_0⟩⟩

/-- The same three writes in two orders. -/
theorem witness_CanonicalMemoriesThatReadAlikeAreEqual :
    let m : Memory := ((Memory.write [] 5 1).write 0 2).write 255 3
    let n : Memory := ((Memory.write [] 255 3).write 5 1).write 0 2
    m.wf ∧ n.wf ∧ m = [(0, 2), (5, 1), (255, 3)] ∧ n = [(0, 2), (5, 1), (255, 3)] := by decide

theorem witness_LoadAndStartActInIdleOnly : (runAt 0).status ≠ .idle ∧ State.reset.status = .idle := by decide

theorem witness_LaunchStateOfAnImage :
    256 < (List.replicate 257 (0 : Byte)).length ∧ (List.replicate 256 (0 : Byte)).length ≤ 256 := by
  simp only [List.length_replicate]
  decide

theorem witness_PushNestedPopRestores :
    Nested [.push 7, .push 1, .pop 2, .pop 6] ∧ (runAt 0).pc.toNat + 2 * (4 + 2) < 256 ∧
    (6 : Byte).toNat = (6 : Reg).val ∧ (6 : Reg) ≠ spIndex :=
  ⟨.around 7 6 [.push 1, .pop 2] (by decide) (by decide) (.around 1 2 [] (by decide) (by decide) .nil),
    by decide, by decide, by decide⟩

theorem witness_CallThenRetResumes : (7 : Byte).toNat = (7 : Reg).val ∧ (runAt 253).pc.toNat < 254 := by decide

/-- At the last address where each form completes. -/
theorem witness_WellFormedInstructionsComplete :
    ((runAt 254).status = .run ∧ (Instr.jmp 7).wellFormed = true ∧ need (Instr.jmp 7).mnemonic (runAt 254) < 256) ∧
    ((runAt 252).status = .run ∧ (Instr.add 7 0).wellFormed = true ∧ need (Instr.add 7 0).mnemonic (runAt 252) < 256) ∧
    ((runAt 255).status = .run ∧ Instr.ret.wellFormed = true ∧ need Instr.ret.mnemonic (runAt 255) < 256) := by decide

theorem witness_FuelOnlyDecidesWhetherARunAnswers :
    ∃ t, runFor defaultConfig 1 (vec 0 [0x01]) = .ended t ∧ runFor defaultConfig 2 (vec 0 [0x01]) = .ended t ∧
      t.status = .halt := ⟨_, rfl, rfl, rfl⟩

end Sys2Proof.Tests
end

/-! ### PROOFS of 10_state.md: what executing an instruction answers, from its checks and its effect -/

namespace Sys2Proof.Machine

/-- The converse of the inversion lemma for an effect: where an instruction has an effect, `exec` answers it. -/
theorem exec_of_effect {i : Instr} {s t : State} (h : Effect s i t) : exec i s = .next t := by
  cases h with
  | hlt => rfl
  | ret => rfl
  | ldi v imm r hv hp => exact checkR_pass _ hp hv
  | prn v r hv hp => exact checkR_pass _ hp hv
  | add v w a b hv hw hp => exact checkRR_pass _ hp hv hw
  | mul v w a b hv hw hp => exact checkRR_pass _ hp hv hw
  | cmp v w a b hv hw hp => exact checkRR_pass _ hp hv hw
  | push v r hv hp => exact checkR_pass _ hp hv
  | pop v r hv hp => exact checkR_pass _ hp hv
  | call v r hv hp => exact checkR_pass _ hp hv
  | jmp v r hv hp => exact checkR_pass _ hp hv
  | jeqTaken v r hv he hp => exact (checkR_pass _ (by simpa [need, he] using hp) hv).trans (if_pos he)
  | jeqNot v r hv he hp => exact (checkR_pass _ (by simpa [need, he] using hp) hv).trans (if_neg (by simp [he]))
  | jneTaken v r hv he hp => exact (checkR_pass _ (by simpa [need, he] using hp) hv).trans (if_neg (by simp [he]))
  | jneNot v r hv he hp => exact (checkR_pass _ (by simpa [need, he] using hp) hv).trans (if_pos he)

/-- `Executes` says exactly what `exec` answers. -/
theorem exec_eq_next_iff {i : Instr} {s t : State} : exec i s = .next t ↔ Executes i s t := by
  refine ⟨executes_of_exec, fun h => ?_⟩
  cases h with
  | address hn => exact exec_address hn
  | registerIndex v hn hv => exact exec_registerIndex hn hv
  | effect _ _ _ he => exact exec_of_effect he

/-- Taking a fault is going wrong (60_exceptions.md R216). -/
theorem State.takeFault_wentWrong (s : State) (cause : FaultCause) : (s.takeFault cause).wentWrong := ⟨_, rfl⟩

/-- An execution that does not go wrong is the instruction's own effect. -/
theorem Executes.effect_of_not_wentWrong {i : Instr} {s t : State} (h : Executes i s t) (ht : ¬ t.wentWrong) :
    Effect s i t := by
  cases h with
  | address _ => exact absurd (s.takeFault_wentWrong _) ht
  | registerIndex v _ _ => exact absurd (s.takeFault_wentWrong _) ht
  | effect _ _ _ he => exact he

/-- In RUN the opcode byte of a row selects that row, and the step executes its instruction on the operand bytes, where
they exist (40_loop_and_data.md R112). -/
theorem stepWith_of_opcode {c : Config} {s : State} {m : Mnemonic} (hs : s.status = .run)
    (hm : s.mem.read s.pc.toNat = c.opcode m) (hp : s.pc.toNat + m.operandCount < 256) :
    stepWith c s =
      exec (m.withOperands (s.mem.read (s.pc.toNat + 1)) (s.mem.read (s.pc.toNat + 2))) s.latchOpcode := by
  rw [stepWith_run hs]
  simp only [runStep, State.latchOpcode_ir, hm, lookupOpcode_opcode]
  cases hd : decodeOperands m s.operandBytes with
  | none => exact absurd (decodeOperands_none.mp hd) (by omega)
  | some p => rw [← decodeOperands_some hd]

/-- The launch state of an image that fits: reset, RUN, and the image in memory from cell 0
(70_reset_and_hazards.md R245, R247). -/
theorem launch_of_fits {img : List Byte} (h : img.length ≤ memSize) :
    ∃ m : Memory, launch img = some { State.reset with status := .run, mem := m } ∧
      ∀ n, m.read n = (img[n]?).getD 0 := by
  obtain ⟨frame, -, cells⟩ := State.hostEvents_loadEvents img 0 State.reset rfl (by omega)
  refine ⟨(State.reset.hostEvents (loadEvents 0 img)).mem, ?_, fun n => cells n n.zero_le⟩
  have loaded : State.reset.hostEvents (.reset :: loadEvents 0 img) = State.reset.hostEvents (loadEvents 0 img) := rfl
  rw [launch, if_pos h, State.hostEvents_append, loaded, frame]
  rfl

/-- What launches fits in memory (70_reset_and_hazards.md R244). -/
theorem fits_of_launch {img : List Byte} {s : State} (h : launch img = some s) : img.length ≤ memSize := by
  by_contra hc
  rw [launch, if_neg hc] at h
  cases h

/-- What holds of a state and is kept by every step holds of every state its run reaches. -/
theorem Reaches.invariant {c : Config} {P : State → Prop} {s t : State} (h : Reaches c s t) (hs : P s)
    (hstep : ∀ u v, P u → stepWith c u = .next v → P v) : P t := by
  induction h with
  | here => exact hs
  | next u v _ huv ih => exact hstep u v ih huv

end Sys2Proof.Machine

/-! ### The flags register: R31 -/

namespace Sys2Proof.Machine

/-- CMP with its registers: the flags of the comparison, and fall through (41_alu.md R144). -/
theorem exec_cmp {s : State} {v w : Byte} {a b : Reg} (hv : v.toNat = a.val) (hw : w.toNat = b.val)
    (hp : s.pc.toNat + 3 < 256) :
    exec (.cmp v w) s = .next ((s.setFl (compareFlags (s.x.get a) (s.x.get b))).advance .cmp) :=
  exec_of_effect (.cmp v w a b hv hw hp)

/-- An instruction other than CMP leaves `fl` (10_state.md R30). -/
theorem Effect.fl_eq {i : Instr} {s t : State} (h : Effect s i t) (hi : i.mnemonic ≠ .cmp) : t.fl = s.fl := by
  cases h with
  | cmp => exact absurd rfl hi
  | _ => rfl

/-- CMP leaves the flags of a comparison (41_alu.md R144). -/
theorem Effect.fl_of_cmp {i : Instr} {s t : State} (h : Effect s i t) (hi : i.mnemonic = .cmp) :
    ∃ u v, t.fl = compareFlags u v := by
  cases h with
  | cmp => exact ⟨_, _, rfl⟩
  | _ => cases hi

theorem Executes.fl_eq {i : Instr} {s t : State} (h : Executes i s t) (hi : i.mnemonic ≠ .cmp) : t.fl = s.fl := by
  cases h with
  | address _ => rfl
  | registerIndex v _ _ => rfl
  | effect _ _ _ he => exact he.fl_eq hi

/-- Executing an instruction leaves `fl` or puts the flags of a comparison there. -/
theorem Executes.fl_cases {i : Instr} {s t : State} (h : Executes i s t) :
    t.fl = s.fl ∨ ∃ u v, t.fl = compareFlags u v := by
  cases h with
  | address _ => exact .inl rfl
  | registerIndex v _ _ => exact .inl rfl
  | effect _ _ _ he =>
    by_cases hi : i.mnemonic = .cmp
    · exact .inr (he.fl_of_cmp hi)
    · exact .inl (he.fl_eq hi)

/-- A step leaves `fl` or puts the flags of a comparison there. -/
theorem stepWith_fl_cases {c : Config} {s t : State} (h : stepWith c s = .next t) :
    t.fl = s.fl ∨ ∃ u v, t.fl = compareFlags u v := by
  obtain ⟨-, hst⟩ := steps_of_stepWith h
  cases hst with
  | unknown _ => exact .inl rfl
  | missing m _ _ _ => exact .inl rfl
  | executes m _ _ _ hx => exact hx.fl_cases

theorem compareFlags_ne_zero (u v : Byte) : compareFlags u v ≠ 0 := by
  rcases compareFlags_cases u v with h | h | h <;> rw [h] <;> decide

theorem compareFlags_mem_legalFlags (u v : Byte) : compareFlags u v ∈ legalFlags := by
  rcases compareFlags_cases u v with h | h | h <;> rw [h] <;> decide

/-- No step leaves the legal values of `fl` (10_state.md R31). -/
theorem stepWith_fl_legal {c : Config} {s t : State} (h : stepWith c s = .next t) (hs : s.fl ∈ legalFlags) :
    t.fl ∈ legalFlags := by
  rcases stepWith_fl_cases h with e | ⟨u, v, e⟩
  · rwa [e]
  · exact e ▸ compareFlags_mem_legalFlags u v

/-- No step clears a nonzero `fl`. -/
theorem stepWith_fl_ne_zero {c : Config} {s t : State} (h : stepWith c s = .next t) (hs : s.fl ≠ 0) : t.fl ≠ 0 := by
  rcases stepWith_fl_cases h with e | ⟨u, v, e⟩
  · rwa [e]
  · exact e ▸ compareFlags_ne_zero u v

theorem launch_fl {img : List Byte} {s : State} (h : launch img = some s) : s.fl = 0 := by
  obtain ⟨m, hl, -⟩ := launch_of_fits (fits_of_launch h)
  rw [h] at hl
  cases hl
  rfl

/-- A program reaches only legal values of `fl`. -/
theorem Reachable.fl_legal {c : Config} {s : State} (h : Reachable c s) : s.fl ∈ legalFlags := by
  obtain ⟨img, start, hl, hr⟩ := h
  exact hr.invariant (P := fun u => u.fl ∈ legalFlags) (by rw [launch_fl hl]; decide)
    fun u v hu huv => stepWith_fl_legal huv hu

/-- The empty program is launched with no flag set. -/
theorem reachable_fl_zero (c : Config) : ∃ s, Reachable c s ∧ s.fl = 0 := by
  obtain ⟨m, hl, -⟩ := launch_of_fits (img := []) (by decide)
  exact ⟨_, ⟨[], _, hl, .here⟩, rfl⟩

/-- The program of one CMP reaches the flags of the comparison of its registers' reset values, whatever byte the opcode map
gives CMP. -/
theorem reachable_compareFlags (c : Config) (a b : Reg) :
    ∃ s, Reachable c s ∧ s.fl = compareFlags (RegFile.reset.get a) (RegFile.reset.get b) := by
  obtain ⟨m, hl, hm⟩ :=
    launch_of_fits (img := [c.opcode .cmp, BitVec.ofNat 8 a.val, BitVec.ofNat 8 b.val]) (by simp [memSize])
  have operand (n : Nat) (r : Reg) (h : m.read n = BitVec.ofNat 8 r.val) : (m.read n).toNat = r.val := by
    have := r.isLt
    simp only [h, BitVec.toNat_ofNat]
    omega
  have fetches := stepWith_of_opcode (c := c) (s := { State.reset with status := .run, mem := m }) (m := .cmp) rfl
    (hm 0) (show 0 + 2 < 256 by decide)
  have compares := exec_cmp (s := State.latchOpcode { State.reset with status := .run, mem := m })
    (operand 1 a (hm 1)) (operand 2 b (hm 2)) (show 0 + 3 < 256 by decide)
  exact ⟨_, ⟨_, _, hl, .next _ _ .here (fetches.trans compares)⟩, rfl⟩

/-- Each legal value is reached: 0 at launch, and the others by comparing R0 and SP, which reset makes 0 and 244. -/
theorem reachable_of_fl_legal (c : Config) {f : Byte} (h : f ∈ legalFlags) : ∃ s, Reachable c s ∧ s.fl = f := by
  simp only [legalFlags, List.mem_cons, List.not_mem_nil, or_false] at h
  rcases h with rfl | rfl | rfl | rfl
  · exact reachable_fl_zero c
  · exact reachable_compareFlags c 0 0
  · exact reachable_compareFlags c spIndex 0
  · exact reachable_compareFlags c 0 spIndex

/-- Settles O32: the legal values are an invariant of every run, and each is the flags of a program of at most one CMP. -/
theorem reachableFlagValues : Obligations.ReachableFlagValues := by
  refine ⟨rfl, fun c f => ?_, fun s v r hfl hp hv => ?_, fun s t v w _ hst ht => ?_,
    fun c s t hst hs => stepWith_fl_ne_zero hst hs⟩
  · have legal : f ∈ legalFlags ↔ f = 0x00 ∨ f = 0x01 ∨ f = 0x02 ∨ f = 0x04 := by simp [legalFlags]
    rw [← legal]
    refine ⟨?_, reachable_of_fl_legal c⟩
    rintro ⟨s, hs, rfl⟩
    exact hs.fl_legal
  · have notEqual : equalBit s.fl = false := by rw [hfl]; decide
    exact ⟨exec_of_effect (.jneTaken v r hv notEqual (by omega)),
      _, exec_of_effect (.jeqNot v r hv notEqual (by omega)), s.pcPlus_toNat 2 (by omega)⟩
  · obtain ⟨a, b, e⟩ := ((executes_of_exec hst).effect_of_not_wentWrong ht).fl_of_cmp rfl
    exact e ▸ compareFlags_ne_zero a b

end Sys2Proof.Machine

/-! ### The flags register: R30 -/

namespace Sys2Proof.Machine

/-- Which number `need` is depends on `fl` for JEQ and JNE only, and there on the Equal bit (40_loop_and_data.md R113). -/
theorem need_setFl {m : Mnemonic} {s : State} {f : Byte} (hf : m = .jeq ∨ m = .jne → equalBit f = equalBit s.fl) :
    need m (s.setFl f) = need m s := by
  cases m with
  | jeq => simp only [need, State.setFl_fl, State.setFl_pc, hf (.inl rfl)]
  | jne => simp only [need, State.setFl_fl, State.setFl_pc, hf (.inr rfl)]
  | _ => rfl

/-- CMP does not read `fl`: with `fl` replaced it leaves the same state (10_state.md R30). -/
theorem Effect.setFl_of_cmp {i : Instr} {s t : State} (h : Effect s i t) (hi : i.mnemonic = .cmp) (f : Byte) :
    Effect (s.setFl f) i t := by
  cases h with
  | cmp v w a b hv hw hp => exact .cmp v w a b hv hw hp
  | _ => cases hi

/-- Any other instruction carries a replaced `fl` along, if the replacement agrees on the Equal bit where that bit is
tested. -/
theorem Effect.setFl {i : Instr} {s t : State} (h : Effect s i t) (hi : i.mnemonic ≠ .cmp) {f : Byte}
    (hf : i.mnemonic = .jeq ∨ i.mnemonic = .jne → equalBit f = equalBit s.fl) :
    Effect (s.setFl f) i (t.setFl f) := by
  cases h with
  | cmp => exact absurd rfl hi
  | hlt => exact .hlt
  | ret => exact .ret
  | ldi v imm r hv hp => exact .ldi v imm r hv hp
  | prn v r hv hp => exact .prn v r hv hp
  | add v w a b hv hw hp => exact .add v w a b hv hw hp
  | mul v w a b hv hw hp => exact .mul v w a b hv hw hp
  | push v r hv hp => exact .push v r hv hp
  | pop v r hv hp => exact .pop v r hv hp
  | call v r hv hp => exact .call v r hv hp
  | jmp v r hv hp => exact .jmp v r hv hp
  | jeqTaken v r hv he hp => exact .jeqTaken v r hv ((hf (.inl rfl)).trans he) hp
  | jeqNot v r hv he hp => exact .jeqNot v r hv ((hf (.inl rfl)).trans he) hp
  | jneTaken v r hv he hp => exact .jneTaken v r hv ((hf (.inr rfl)).trans he) hp
  | jneNot v r hv he hp => exact .jneNot v r hv ((hf (.inr rfl)).trans he) hp

/-- The same of an execution, faults included. -/
theorem Executes.setFl {i : Instr} {s t : State} (h : Executes i s t) (hi : i.mnemonic ≠ .cmp) {f : Byte}
    (hf : i.mnemonic = .jeq ∨ i.mnemonic = .jne → equalBit f = equalBit s.fl) :
    Executes i (s.setFl f) (t.setFl f) := by
  have hneed : need i.mnemonic (s.setFl f) = need i.mnemonic s := need_setFl hf
  cases h with
  | address hn => exact hneed ▸ .address (hneed ▸ hn)
  | registerIndex v hn hv => exact .registerIndex v (hneed ▸ hn) hv
  | effect _ hn hw he => exact .effect _ (hneed ▸ hn) hw (he.setFl hi hf)

/-- Settles O31: the effects one by one, with the Equal bit the only part of `fl` an effect or `need` looks at. -/
theorem flagsWrittenByCmpAndReadThroughEqual : Obligations.FlagsWrittenByCmpAndReadThroughEqual := by
  intro i s t f _ h
  have hx := executes_of_exec h
  have replaced (hi : i.mnemonic ≠ .cmp)
      (hf : i.mnemonic = .jeq ∨ i.mnemonic = .jne → equalBit f = equalBit s.fl) :
      exec i (s.setFl f) = .next (t.setFl f) := exec_eq_next_iff.mpr (hx.setFl hi hf)
  refine ⟨hx.fl_eq, fun hi ht => ?_, fun hi hjeq hjne => ?_, fun hi hf => ?_⟩
  · have effect := hx.effect_of_not_wentWrong ht
    obtain ⟨u, v, e⟩ := effect.fl_of_cmp hi
    exact ⟨e ▸ compareFlags_cases u v, exec_of_effect (effect.setFl_of_cmp hi f)⟩
  · exact replaced hi fun hj => (hj.elim hjeq hjne).elim
  · have notCmp : i.mnemonic ≠ .cmp := by rcases hi with e | e <;> simp [e]
    exact replaced notCmp fun _ => hf

end Sys2Proof.Machine

/-! ### The registers: R23 -/

namespace Sys2Proof.Machine

/-- A byte that names `r` names no other register (30_encoding.md R91). -/
theorem names_iff_eq {v : Byte} {r q : Reg} (hv : v.toNat = r.val) : v.toNat = q.val ↔ q = r := by
  rw [hv, Fin.ext_iff, eq_comm]

/-- An instruction's own effect leaves every register that is not in the "writes" column. -/
theorem Effect.reg_unwritten {i : Instr} {s t : State} (h : Effect s i t) {q : Reg} (hq : ¬ writesReg q i) :
    t.x.get q = s.x.get q := by
  cases h with
  | ldi v imm r hv hp => simp [mt (names_iff_eq hv).mpr hq]
  | add v w a b hv hw hp => simp [mt (names_iff_eq hv).mpr hq]
  | mul v w a b hv hw hp => simp [mt (names_iff_eq hv).mpr hq]
  | push v r hv hp => simp [State.pushReg, show q ≠ spIndex from hq]
  | pop v r hv hp =>
    obtain ⟨hr, hsp⟩ := not_or.mp hq
    simp [State.popReg, mt (names_iff_eq hv).mpr hr, hsp]
  | call v r hv hp => simp [State.pushReturn, show q ≠ spIndex from hq]
  | ret => simp [show q ≠ spIndex from hq]
  | _ => rfl

/-- So does an execution, faults included. -/
theorem Executes.reg_unwritten {i : Instr} {s t : State} (h : Executes i s t) {q : Reg} (hq : ¬ writesReg q i) :
    t.x.get q = s.x.get q := by
  cases h with
  | address _ => rfl
  | registerIndex v _ _ => rfl
  | effect _ _ _ he => exact he.reg_unwritten hq

/-- `need` looks at no register (40_loop_and_data.md R113). -/
theorem need_withRegs (m : Mnemonic) (s : State) (y : RegFile) : need m { s with x := y } = need m s := by
  cases m <;> rfl

/-- After the decrement of a push, register files that agreed on SP and on `r` agree on both still. -/
theorem RegFile.get_set_pred_congr {x y : RegFile} {r : Reg} (hsp : y.get spIndex = x.get spIndex)
    (hr : y.get r = x.get r) :
    (y.set spIndex (y.get spIndex - 1)).get r = (x.set spIndex (x.get spIndex - 1)).get r := by
  simp only [RegFile.get_set, hsp, hr]

/-- PUSH depends on the register file through SP and `x[r]` alone. -/
theorem State.pushReg_withRegs {s : State} {y : RegFile} {r : Reg} (hsp : y.get spIndex = s.x.get spIndex)
    (hr : y.get r = s.x.get r) :
    State.pushReg { s with x := y } r = { s.pushReg r with x := y.set spIndex (y.get spIndex - 1) } := by
  simp only [State.pushReg, State.memWrite, State.lowerSp, State.setReg, State.sp_eq, State.reg_eq,
    RegFile.get_set_pred_congr hsp hr, RegFile.get_set_pred_congr hsp hsp]

/-- The pushing half of CALL depends on the register file through SP alone. -/
theorem State.pushReturn_withRegs {s : State} {y : RegFile} (hsp : y.get spIndex = s.x.get spIndex) :
    State.pushReturn { s with x := y } = { s.pushReturn with x := y.set spIndex (y.get spIndex - 1) } := by
  simp only [State.pushReturn, State.memWrite, State.lowerSp, State.setReg, State.sp_eq,
    RegFile.get_set_pred_congr hsp hsp]
  rfl

/-- From a register file that agrees on the registers of the "reads" column, an effect is the same on everything but the
registers, and writes the same values. -/
theorem Effect.withRegs {i : Instr} {s t : State} (h : Effect s i t) {y : RegFile}
    (hy : ∀ q, readsReg s.fl q i → y.get q = s.x.get q) :
    ∃ z, Effect { s with x := y } i { t with x := z } ∧ ∀ q, writesReg q i → z.get q = t.x.get q := by
  cases h with
  | hlt => exact ⟨y, .hlt, nofun⟩
  | ldi v imm r hv hp =>
    refine ⟨y.set r imm, .ldi v imm r hv hp, fun q hq => ?_⟩
    obtain rfl := (names_iff_eq hv).mp hq
    simp
  | prn v r hv hp =>
    refine ⟨y, ?_, nofun⟩
    rw [← hy r hv]
    exact .prn v r hv hp
  | add v w a b hv hw hp =>
    refine ⟨_, .add v w a b hv hw hp, fun q hq => ?_⟩
    obtain rfl := (names_iff_eq hv).mp hq
    simp [hy q (.inl hv), hy b (.inr hw)]
  | mul v w a b hv hw hp =>
    refine ⟨_, .mul v w a b hv hw hp, fun q hq => ?_⟩
    obtain rfl := (names_iff_eq hv).mp hq
    simp [hy q (.inl hv), hy b (.inr hw)]
  | cmp v w a b hv hw hp =>
    refine ⟨y, ?_, nofun⟩
    rw [← hy a (.inl hv), ← hy b (.inr hw)]
    exact .cmp v w a b hv hw hp
  | push v r hv hp =>
    have hsp := hy spIndex (.inl rfl)
    have push := Effect.push (s := { s with x := y }) v r hv hp
    rw [State.pushReg_withRegs hsp (hy r (.inr hv))] at push
    refine ⟨_, push, fun q hq => ?_⟩
    obtain rfl := hq
    exact RegFile.get_set_pred_congr hsp hsp
  | pop v r hv hp =>
    have hsp := hy spIndex rfl
    refine ⟨_, .pop v r hv hp, fun q hq => ?_⟩
    rcases hq with hq | rfl
    · obtain rfl := (names_iff_eq hv).mp hq
      simp [State.popReg, hsp]
    · simp [State.popReg, hsp]
  | call v r hv hp =>
    have hsp := hy spIndex (.inl rfl)
    have call := Effect.call (s := { s with x := y }) v r hv hp
    rw [State.pushReturn_withRegs hsp] at call
    have target : (y.set spIndex (y.get spIndex - 1)).get r = s.pushReturn.x.get r :=
      RegFile.get_set_pred_congr hsp (hy r (.inr hv))
    refine ⟨y.set spIndex (y.get spIndex - 1), ?_, fun q hq => ?_⟩
    · rw [← target]
      exact call
    · obtain rfl := hq
      exact RegFile.get_set_pred_congr hsp hsp
  | ret =>
    have hsp := hy spIndex rfl
    refine ⟨y.set spIndex (y.get spIndex + 1), ?_, fun q hq => ?_⟩
    · rw [← hsp]
      exact .ret
    · obtain rfl := hq
      simp [hsp]
  | jmp v r hv hp =>
    refine ⟨y, ?_, nofun⟩
    rw [← hy r hv]
    exact .jmp v r hv hp
  | jeqTaken v r hv he hp =>
    refine ⟨y, ?_, nofun⟩
    rw [← hy r ⟨he, hv⟩]
    exact .jeqTaken v r hv he hp
  | jeqNot v r hv he hp => exact ⟨y, .jeqNot v r hv he hp, nofun⟩
  | jneTaken v r hv he hp =>
    refine ⟨y, ?_, nofun⟩
    rw [← hy r ⟨he, hv⟩]
    exact .jneTaken v r hv he hp
  | jneNot v r hv he hp => exact ⟨y, .jneNot v r hv he hp, nofun⟩

/-- The same of an execution: a fault is the same fault, and then no value need agree. -/
theorem Executes.withRegs {i : Instr} {s t : State} (h : Executes i s t) {y : RegFile}
    (hy : ∀ q, readsReg s.fl q i → y.get q = s.x.get q) :
    ∃ z, Executes i { s with x := y } { t with x := z } ∧
      (¬ t.wentWrong → ∀ q, writesReg q i → z.get q = t.x.get q) := by
  have hneed := need_withRegs i.mnemonic s y
  cases h with
  | address hn => exact ⟨y, hneed ▸ .address (hneed ▸ hn), fun ht => absurd (s.takeFault_wentWrong _) ht⟩
  | registerIndex v hn hv =>
    exact ⟨y, .registerIndex v (hneed ▸ hn) hv, fun ht => absurd (s.takeFault_wentWrong _) ht⟩
  | effect _ hn hw he =>
    obtain ⟨z, hz, written⟩ := he.withRegs hy
    exact ⟨z, .effect _ (hneed ▸ hn) hw hz, fun _ => written⟩

/-- Settles O22: the frame of each effect, and each effect replayed from the other register file. -/
theorem registersReadAndWrittenAsTabled : Obligations.RegistersReadAndWrittenAsTabled := by
  intro i s t y h
  have hx := executes_of_exec h
  refine ⟨fun q hq => hx.reg_unwritten hq, fun hy => ?_⟩
  obtain ⟨z, hz, written⟩ := hx.withRegs hy
  exact ⟨_, exec_eq_next_iff.mpr hz, rfl, fun q hq => hz.reg_unwritten hq, written⟩

end Sys2Proof.Machine

/-! ### PROOFS of 40_loop_and_data.md: LDI, PRN and what the opcode byte selects -/

namespace Sys2Proof.Machine

/-- A first register operand byte above 7 is the one a RegisterIndexFault reports, where the address check passes
(40_loop_and_data.md R114). -/
theorem exec_registerIndex_of_first {i : Instr} {s : State} {v : Byte} {vs : List Byte} (hi : i.regOperands = v :: vs)
    (hn : need i.mnemonic s < 256) (hv : 8 ≤ v.toNat) : exec i s = .next (s.takeFault (.registerIndex v)) := by
  refine exec_registerIndex hn ?_
  rw [hi]
  exact List.find?_cons_of_pos (by simp [regByteOk_of_ge hv])

/-- Falling through goes to the address after the instruction while that is in memory (40_loop_and_data.md R115). -/
theorem State.advance_pc_toNat (s : State) (m : Mnemonic) (h : s.pc.toNat + m.length < 256) :
    (s.advance m).pc.toNat = s.pc.toNat + m.length :=
  s.pcPlus_toNat m.length h

/-- Settles O6: the address check, the register index check, and LDI's effect once both pass. -/
theorem ldiLoadsTheImmediate : Obligations.LdiLoadsTheImmediate := by
  intro s v imm
  refine ⟨fun _ => rfl, rfl, fun hp => ?_, fun hp hv => ?_, fun r hp hv => ?_⟩
  · exact exec_address (show 256 ≤ s.pc.toNat + 3 by omega)
  · exact exec_registerIndex_of_first rfl (show s.pc.toNat + 3 < 256 by omega) hv
  · have next : s.pc.toNat + 3 < 256 := by omega
    refine ⟨_, exec_of_effect (.ldi v imm r hv next), ?_, fun q hq => ?_, ?_, rfl⟩
    · simp
    · simp [hq]
    · exact (s.setReg r imm).advance_pc_toNat .ldi next

/-- Settles O7: the address check, the register index check, and PRN's effect once both pass. -/
theorem prnEmitsTheRegister : Obligations.PrnEmitsTheRegister := by
  intro s v
  refine ⟨fun _ => rfl, rfl, fun hp => ?_, fun hp hv => ?_, fun r hp hv => ?_⟩
  · exact exec_address (show 256 ≤ s.pc.toNat + 2 by omega)
  · exact exec_registerIndex_of_first rfl (show s.pc.toNat + 2 < 256 by omega) hv
  · have next : s.pc.toNat + 2 < 256 := by omega
    exact ⟨_, exec_of_effect (.prn v r hv next), rfl, (s.emit (s.x.get r)).advance_pc_toNat .prn next, rfl⟩

/-- In RUN a byte that is no row's opcode is a DecodeFault, taken with that byte in `ir`
(40_loop_and_data.md R112). -/
theorem stepWith_of_unknownOpcode {c : Config} {s : State} (hs : s.status = .run)
    (h : ∀ m, c.opcode m ≠ s.mem.read s.pc.toNat) : stepWith c s = .next (s.latchOpcode.takeFault .decode) := by
  rw [stepWith_run hs]
  simp only [runStep, State.latchOpcode_ir, lookupOpcode_none.mpr h]

/-- Settles O24: the byte at `pc` is a row's opcode, which selects that row, or it is none and the step is a
DecodeFault. -/
theorem opcodeByteSelectsOrFaults : Obligations.OpcodeByteSelectsOrFaults := by
  intro c s hs
  refine ⟨fun m hm hp => ?_, fun h => ?_⟩
  · exact stepWith_of_opcode hs hm (Nat.lt_succ_of_le hp)
  · exact stepWith_of_unknownOpcode hs fun m e => h m e.symm

end Sys2Proof.Machine

/-! ### PROOFS of 41_alu.md: ADD, MUL and CMP -/

namespace Sys2Proof.Machine

/-- The three instructions with two register operands fall through to the address three on
(30_encoding.md R83, 40_loop_and_data.md R113). -/
theorem need_of_twoRegOperands {i : Instr} {v w : Byte} (hi : i.regOperands = [v, w]) (s : State) :
    need i.mnemonic s = s.pc.toNat + 3 := by
  cases i with
  | add => rfl
  | mul => rfl
  | cmp => rfl
  | _ => cases hi

section TwoRegOperands
variable {i : Instr} {v w : Byte} (hi : i.regOperands = [v, w]) {s : State}
include hi

/-- With two register operands the AddressFault comes from address 253 on, whatever the operands. -/
theorem exec_address_of_twoRegOperands (hp : 253 ≤ s.pc.toNat) :
    exec i s = .next (s.faulted (.address (s.pc.toNat + 3))) := by
  have hneed := need_of_twoRegOperands hi s
  rw [← hneed]
  exact exec_address (by omega)

/-- The first operand is the one checked first. -/
theorem exec_registerIndex_first_of_twoRegOperands (hp : s.pc.toNat < 253) (hv : 8 ≤ v.toNat) :
    exec i s = .next (s.faulted (.registerIndex v)) := by
  have hneed := need_of_twoRegOperands hi s
  exact exec_registerIndex_of_first hi (by omega) hv

/-- The second operand is checked once the first has passed. -/
theorem exec_registerIndex_second_of_twoRegOperands (hp : s.pc.toNat < 253) (hv : v.toNat < 8)
    (hw : 8 ≤ w.toNat) : exec i s = .next (s.faulted (.registerIndex w)) := by
  have hneed := need_of_twoRegOperands hi s
  refine exec_registerIndex (by omega) ?_
  simp [hi, regByteOk_of_lt hv, regByteOk_of_ge hw]

end TwoRegOperands

/-- An effect that puts an exact number into a register and falls through leaves that number modulo 256 there
(41_alu.md R145), and nothing but that register and `pc` changes. -/
theorem exec_of_narrowedResult {i : Instr} {m : Mnemonic} {s : State} {a : Reg} {n : Nat}
    (he : Effect s i ((s.setReg a (BitVec.ofNat 8 n)).advance m)) (hp : s.pc.toNat + m.length < 256) :
    ∃ t, exec i s = .next t ∧ (t.x.get a).toNat = n % 256 ∧ (∀ q, q ≠ a → t.x.get q = s.x.get q) ∧
      t.pc.toNat = s.pc.toNat + m.length ∧ t = { s with x := t.x, pc := t.pc } := by
  refine ⟨_, exec_of_effect he, ?_, fun q hq => ?_, State.advance_pc_toNat _ m hp, rfl⟩
  · simp
  · simp [hq]

/-- Settles O8: the checks of two register operands, then the exact sum narrowed modulo 256. -/
theorem addAddsModulo256 : Obligations.AddAddsModulo256 := by
  intro s v w
  refine ⟨fun _ => rfl, rfl, exec_address_of_twoRegOperands rfl, exec_registerIndex_first_of_twoRegOperands rfl,
    exec_registerIndex_second_of_twoRegOperands rfl, fun a b hp hv hw => ?_⟩
  have next : s.pc.toNat + 3 < 256 := by omega
  exact exec_of_narrowedResult (.add v w a b hv hw next) next

/-- Settles O9: the checks of two register operands, then the exact product narrowed modulo 256. -/
theorem mulMultipliesModulo256 : Obligations.MulMultipliesModulo256 := by
  intro s v w
  refine ⟨fun _ => rfl, rfl, exec_address_of_twoRegOperands rfl, exec_registerIndex_first_of_twoRegOperands rfl,
    exec_registerIndex_second_of_twoRegOperands rfl, fun a b hp hv hw => ?_⟩
  have next : s.pc.toNat + 3 < 256 := by omega
  exact exec_of_narrowedResult (.mul v w a b hv hw next) next

theorem compareFlags_of_eq {u v : Byte} (h : u.toNat = v.toNat) : compareFlags u v = flagE := if_pos h

theorem compareFlags_of_gt {u v : Byte} (h : v.toNat < u.toNat) : compareFlags u v = flagG :=
  (if_neg h.ne').trans (if_pos h)

theorem compareFlags_of_lt {u v : Byte} (h : u.toNat < v.toNat) : compareFlags u v = flagL :=
  (if_neg h.ne).trans (if_neg h.asymm)

/-- Settles O10: the checks of two register operands, then the flag of each of the three orderings. -/
theorem cmpSetsExactlyOneFlag : Obligations.CmpSetsExactlyOneFlag := by
  intro s v w
  refine ⟨fun _ => rfl, rfl, exec_address_of_twoRegOperands rfl, exec_registerIndex_first_of_twoRegOperands rfl,
    exec_registerIndex_second_of_twoRegOperands rfl, fun a b hp hv hw => ?_⟩
  have next : s.pc.toNat + 3 < 256 := by omega
  exact ⟨_, exec_cmp hv hw next, compareFlags_of_eq, compareFlags_of_gt, compareFlags_of_lt,
    State.advance_pc_toNat _ .cmp next, rfl⟩

end Sys2Proof.Machine

/-! ### PROOFS of 42_stack_subroutine.md: PUSH, POP and RET -/

namespace Sys2Proof.Machine

@[simp] theorem State.pushReg_x (s : State) (r : Reg) :
    (s.pushReg r).x = s.x.set spIndex (s.x.get spIndex - 1) := rfl

/-- After PUSH the cell the lowered SP names holds `x[r]` as read after the decrement, and every other cell its old byte
(42_stack_subroutine.md R162, R168). -/
theorem State.pushReg_read (s : State) (r : Reg) (n : Nat) :
    (s.pushReg r).mem.read n =
      if n = ((s.pushReg r).x.get spIndex).toNat then (s.pushReg r).x.get r else s.mem.read n :=
  Memory.read_write ..

/-- SP is raised from its value after the load (42_stack_subroutine.md R168). -/
@[simp] theorem State.popReg_x (s : State) (r : Reg) :
    (s.popReg r).x = (s.setReg r (s.mem.read (s.x.get spIndex).toNat)).raiseSp.x := rfl

section NeedsTwo
variable {i : Instr} {s : State} (hneed : need i.mnemonic s = s.pc.toNat + 2)
include hneed

/-- An instruction that needs the address `p + 2` has its AddressFault from address 254 on, whatever the operand
(40_loop_and_data.md R113). -/
theorem exec_address_of_need_two (hp : 254 ≤ s.pc.toNat) :
    exec i s = .next (s.faulted (.address (s.pc.toNat + 2))) := by
  rw [← hneed]
  exact exec_address (by omega)

/-- Below address 254 its register operand is checked (40_loop_and_data.md R114). -/
theorem exec_registerIndex_of_need_two {v : Byte} (hi : i.regOperands = [v]) (hp : s.pc.toNat < 254)
    (hv : 8 ≤ v.toNat) : exec i s = .next (s.faulted (.registerIndex v)) :=
  exec_registerIndex_of_first hi (by omega) hv

end NeedsTwo

/-- Settles O14: RET has no check, so its effect is what it answers. -/
theorem retPopsIntoPc : Obligations.RetPopsIntoPc := by
  intro s
  refine ⟨fun _ => rfl, rfl, _, exec_of_effect .ret, rfl, ?_, fun q hq => ?_, rfl⟩
  · simp
  · simp [hq]

/-- Settles O11: the address check, the register index check, and PUSH's effect once both pass. -/
theorem pushStoresBelowTheStack : Obligations.PushStoresBelowTheStack := by
  intro s v
  refine ⟨fun _ => rfl, rfl, exec_address_of_need_two rfl, exec_registerIndex_of_need_two rfl rfl,
    fun r hp hv => ?_⟩
  have next : s.pc.toNat + 2 < 256 := by omega
  refine ⟨_, exec_of_effect (.push v r hv next), ?_, fun q hq => ?_, ?_, fun n hn => ?_,
    (s.pushReg r).advance_pc_toNat .push next, rfl⟩
  · simp [Nat.add_comm]
  · simp [hq]
  · exact (s.pushReg_read r _).trans (if_pos rfl)
  · exact (s.pushReg_read r _).trans (if_neg hn)

/-- Settles O12: the address check, the register index check, and POP's effect once both pass, where a load into R7
is what SP is raised from. -/
theorem popLoadsFromTheStack : Obligations.PopLoadsFromTheStack := by
  intro s v
  refine ⟨fun _ => rfl, rfl, exec_address_of_need_two rfl, exec_registerIndex_of_need_two rfl rfl,
    fun r hp hv => ?_⟩
  have next : s.pc.toNat + 2 < 256 := by omega
  refine ⟨_, exec_of_effect (.pop v r hv next), fun hr => ⟨?_, ?_⟩, fun hr => ?_, fun q hq hsp => ?_,
    (s.popReg r).advance_pc_toNat .pop next, rfl⟩
  · simp [hr]
  · simp [hr.symm]
  · simp [hr]
  · simp [hq, hsp]

end Sys2Proof.Machine

/-! ### PROOFS of 43_branch.md: JMP, JEQ and JNE -/

namespace Sys2Proof.Machine

section NeedsOne
variable {i : Instr} {s : State} (hneed : need i.mnemonic s = s.pc.toNat + 1)
include hneed

/-- A jump needs no address to fall through to, so its AddressFault is at address 255 only, where its operand byte would
lie outside memory (40_loop_and_data.md R113). -/
theorem exec_address_of_need_one (hp : s.pc.toNat = 255) : exec i s = .next (s.faulted (.address 256)) := by
  have past : need i.mnemonic s = 256 := by omega
  rw [← past]
  exact exec_address past.ge

/-- Below address 255 its register operand is checked (40_loop_and_data.md R114). -/
theorem exec_registerIndex_of_need_one {v : Byte} (hi : i.regOperands = [v]) (hp : s.pc.toNat < 255)
    (hv : 8 ≤ v.toNat) : exec i s = .next (s.faulted (.registerIndex v)) :=
  exec_registerIndex_of_first hi (by omega) hv

end NeedsOne

/-- An effect that only falls through moves `pc` past the instruction and changes nothing else
(40_loop_and_data.md R115). -/
theorem exec_of_fallThrough {i : Instr} {m : Mnemonic} {s : State} (he : Effect s i (s.advance m))
    (hp : s.pc.toNat + m.length < 256) :
    ∃ t, exec i s = .next t ∧ t.pc.toNat = s.pc.toNat + m.length ∧ t = { s with pc := t.pc } :=
  ⟨_, exec_of_effect he, s.advance_pc_toNat m hp, rfl⟩

/-- Settles O15: the address check, the register index check, and JMP's effect once both pass. -/
theorem jmpGoesToTheRegister : Obligations.JmpGoesToTheRegister := by
  intro s v
  refine ⟨fun _ => rfl, rfl, exec_address_of_need_one rfl, exec_registerIndex_of_need_one rfl rfl,
    fun r hp hv => ?_⟩
  exact exec_of_effect (.jmp v r hv (by omega))

/-- Settles O16: the Equal bit decides which address JEQ needs, and with it where each check fails; past the checks it
decides between JEQ's two effects. -/
theorem jeqJumpsWhenEqual : Obligations.JeqJumpsWhenEqual := by
  intro s v
  have taken (he : equalBit s.fl = true) : need (Instr.jeq v).mnemonic s = s.pc.toNat + 1 := by
    simp [Instr.mnemonic, need, he]
  have notTaken (he : equalBit s.fl = false) : need (Instr.jeq v).mnemonic s = s.pc.toNat + 2 := by
    simp [Instr.mnemonic, need, he]
  refine ⟨fun _ => rfl, rfl,
    fun he => exec_address_of_need_one (taken he), fun he => exec_address_of_need_two (notTaken he),
    fun he => exec_registerIndex_of_need_one (taken he) rfl,
    fun he => exec_registerIndex_of_need_two (notTaken he) rfl, fun r he hp hv => ?_, fun r he hp hv => ?_⟩
  · exact exec_of_effect (.jeqTaken v r hv he (by omega))
  · have next : s.pc.toNat + 2 < 256 := by omega
    exact exec_of_fallThrough (.jeqNot v r hv he next) next

/-- Settles O17: as for JEQ, with the Equal bit read the other way round. -/
theorem jneJumpsWhenNotEqual : Obligations.JneJumpsWhenNotEqual := by
  intro s v
  have taken (he : equalBit s.fl = false) : need (Instr.jne v).mnemonic s = s.pc.toNat + 1 := by
    simp [Instr.mnemonic, need, he]
  have notTaken (he : equalBit s.fl = true) : need (Instr.jne v).mnemonic s = s.pc.toNat + 2 := by
    simp [Instr.mnemonic, need, he]
  refine ⟨fun _ => rfl, rfl,
    fun he => exec_address_of_need_one (taken he), fun he => exec_address_of_need_two (notTaken he),
    fun he => exec_registerIndex_of_need_one (taken he) rfl,
    fun he => exec_registerIndex_of_need_two (notTaken he) rfl, fun r he hp hv => ?_, fun r he hp hv => ?_⟩
  · exact exec_of_effect (.jneTaken v r hv he (by omega))
  · have next : s.pc.toNat + 2 < 256 := by omega
    exact exec_of_fallThrough (.jneNot v r hv he next) next

end Sys2Proof.Machine

/-! ### PROOFS of 30_encoding.md: the decoder and the encoder invert each other -/

namespace Sys2Proof

/-- Every instruction is the one its row makes of some operand bytes. -/
theorem Instr.exists_eq_withOperands (i : Instr) : ∃ a b, i = i.mnemonic.withOperands a b := by
  cases i with
  | hlt => exact ⟨0, 0, rfl⟩
  | ret => exact ⟨0, 0, rfl⟩
  | ldi r imm => exact ⟨r, imm, rfl⟩
  | mul ra rb => exact ⟨ra, rb, rfl⟩
  | add ra rb => exact ⟨ra, rb, rfl⟩
  | cmp ra rb => exact ⟨ra, rb, rfl⟩
  | prn r => exact ⟨r, 0, rfl⟩
  | push r => exact ⟨r, 0, rfl⟩
  | pop r => exact ⟨r, 0, rfl⟩
  | call r => exact ⟨r, 0, rfl⟩
  | jmp r => exact ⟨r, 0, rfl⟩
  | jeq r => exact ⟨r, 0, rfl⟩
  | jne r => exact ⟨r, 0, rfl⟩

/-- The encoding of a row's instruction is the row's opcode byte and as many operand bytes as the row counts
(30_encoding.md R81 to R85). -/
theorem encode_withOperands (c : Config) (m : Mnemonic) (a b : Byte) :
    encode c (m.withOperands a b) = c.opcode m :: [a, b].take m.operandCount := by
  cases m <;> rfl

/-- Reading the operands of a row takes exactly the bytes the row counts, in order, and makes its instruction of them. -/
theorem decodeOperands_eq_some_iff {m : Mnemonic} {bytes rest : List Byte} {i : Instr} :
    decodeOperands m bytes = some (i, rest) ↔
      ∃ a b, i = m.withOperands a b ∧ bytes = [a, b].take m.operandCount ++ rest := by
  constructor
  · intro h
    unfold decodeOperands at h
    split at h <;> cases h
    next hf => exact ⟨0, 0, rfl, by simp [Mnemonic.operandCount, hf, Format.operandCount]⟩
    next a hf => exact ⟨a, 0, rfl, by simp [Mnemonic.operandCount, hf, Format.operandCount]⟩
    next a b hf => exact ⟨a, b, rfl, by simp [Mnemonic.operandCount, hf, Format.operandCount]⟩
    next a b hf => exact ⟨a, b, rfl, by simp [Mnemonic.operandCount, hf, Format.operandCount]⟩
  · rintro ⟨a, b, rfl, rfl⟩
    cases m <;> rfl

/-- Decoding gives an instruction and a rest exactly when its row is the one the first byte selects and the operands read
after it are its own. -/
theorem decode_eq_ok_iff {c : Config} {bytes rest : List Byte} {i : Instr} :
    decode c bytes = .ok i rest ↔
      ∃ m operands, bytes = c.opcode m :: operands ∧ decodeOperands m operands = some (i, rest) := by
  constructor
  · intro h
    cases bytes with
    | nil => cases h
    | cons op operands =>
      simp only [decode] at h
      split at h
      next => cases h
      next m hm =>
        split at h <;> cases h
        next hd => exact ⟨m, operands, by rw [lookupOpcode_some hm], hd⟩
  · rintro ⟨m, operands, rfl, h⟩
    simp only [decode, lookupOpcode_opcode, h]

/-- THE ROUND TRIP, both ways: bytes decode to an instruction and a rest exactly when they are its encoding followed by the
rest. -/
theorem decode_eq_ok_iff_eq_encode {c : Config} {bytes rest : List Byte} {i : Instr} :
    decode c bytes = .ok i rest ↔ bytes = encode c i ++ rest := by
  rw [decode_eq_ok_iff]
  constructor
  · rintro ⟨m, operands, rfl, h⟩
    obtain ⟨a, b, rfl, rfl⟩ := decodeOperands_eq_some_iff.mp h
    rw [encode_withOperands, List.cons_append]
  · rintro rfl
    obtain ⟨a, b, hi⟩ := i.exists_eq_withOperands
    refine ⟨i.mnemonic, [a, b].take i.mnemonic.operandCount ++ rest, ?_, decodeOperands_eq_some_iff.mpr ⟨a, b, hi, rfl⟩⟩
    rw [hi, encode_withOperands, List.cons_append, Mnemonic.withOperands_mnemonic]

/-- Settles O2: the direction of the round trip from the instruction. -/
theorem decodeInvertsEncode : Obligations.DecodeInvertsEncode :=
  fun _ _ _ => decode_eq_ok_iff_eq_encode.mpr rfl

/-- Settles O3: the direction of the round trip from the bytes. -/
theorem decodedBytesAreTheEncoding : Obligations.DecodedBytesAreTheEncoding :=
  fun _ _ _ _ => decode_eq_ok_iff_eq_encode.mp

/-- The byte values that select a row, counted up, are the rows' opcode bytes in some order. -/
theorem recognisedOpcodes_perm (c : Config) :
    ((List.range 256).filter fun n => (lookupOpcode c (BitVec.ofNat 8 n)).isSome).Perm
      (Mnemonic.all.map fun m => (c.opcode m).toNat) := by
  have rowsNodup : Mnemonic.all.Nodup := by decide
  have bytesNodup : (Mnemonic.all.map fun m => (c.opcode m).toNat).Nodup :=
    rowsNodup.map fun m n h => c.opcode_injective m n (BitVec.eq_of_toNat_eq h)
  refine (List.perm_ext_iff_of_nodup (List.nodup_range.filter _) bytesNodup).mpr fun n => ?_
  simp only [List.mem_filter, List.mem_range, List.mem_map, Option.isSome_iff_exists]
  constructor
  · rintro ⟨hn, m, hm⟩
    refine ⟨m, m.mem_all, ?_⟩
    rw [lookupOpcode_some hm, BitVec.toNat_ofNat, Nat.mod_eq_of_lt hn]
  · rintro ⟨m, -, rfl⟩
    exact ⟨(c.opcode m).isLt, m, by rw [BitVec.ofNat_toNat, BitVec.setWidth_eq, lookupOpcode_opcode]⟩

/-- Settles O4: the thirteen rows' bytes are the recognised values, so 243 of the 256 are not. -/
theorem unrecognisedOpcodesAre243 : Obligations.UnrecognisedOpcodesAre243 := by
  intro c
  have recognised := (recognisedOpcodes_perm c).length_eq
  have all := List.length_eq_length_filter_add (l := List.range 256)
    fun n => (lookupOpcode c (BitVec.ofNat 8 n)).isSome
  simp only [Option.not_isSome] at all
  rw [recognised, List.length_map, List.length_range] at all
  have thirteen : Mnemonic.all.length = 13 := rfl
  omega

/-- Settles O1: each word decodes to its instruction, or to nothing, by running the decoder. -/
theorem wordsOfTheSpecDecode : Obligations.WordsOfTheSpecDecode := by
  unfold Obligations.WordsOfTheSpecDecode
  decide

end Sys2Proof

/-! ### PROOFS of the step: its faults, its completion, and what it does to the status -/

namespace Sys2Proof

/-- A row whose instruction is HLT is HLT's row. -/
theorem Mnemonic.eq_hlt_of_withOperands {m : Mnemonic} {a b : Byte} (h : m.withOperands a b = .hlt) : m = .hlt := by
  rw [← m.withOperands_mnemonic a b, h]
  rfl

/-- Which of two operand bytes a format makes register operands (30_encoding.md R81 to R84): the immediate is none. -/
def Format.regOperands (a b : Byte) : Format → List Byte
  | .z => []
  | .r => [a]
  | .rr => [a, b]
  | .ri => [a]

/-- The register operands of a row's instruction are those its format makes of the operand bytes. -/
@[simp] theorem Mnemonic.withOperands_regOperands (m : Mnemonic) (a b : Byte) :
    (m.withOperands a b).regOperands = m.format.regOperands a b := by
  cases m <;> rfl

/-- A format with an operand has its first register operand in the byte after the opcode. -/
theorem Format.regOperands_eq_cons {f : Format} (h : f ≠ .z) (a b : Byte) : ∃ vs, f.regOperands a b = a :: vs := by
  cases f with
  | z => exact absurd rfl h
  | _ => exact ⟨_, rfl⟩

end Sys2Proof

namespace Sys2Proof.Machine

/-- In RUN an address past memory is an AddressFault, whether it is an operand byte's or the one fallen through to
(40_loop_and_data.md R113). -/
theorem stepWith_of_need_past {c : Config} {s : State} {m : Mnemonic} (hs : s.status = .run)
    (hm : s.mem.read s.pc.toNat = c.opcode m) (hn : 256 ≤ need m s) :
    stepWith c s = .next (s.latchOpcode.takeFault (.address (need m s))) := by
  by_cases hp : s.pc.toNat + m.operandCount < 256
  · rw [stepWith_of_opcode hs hm hp, exec_address] <;> rw [Mnemonic.withOperands_mnemonic, need_latchOpcode]
    exact hn
  · rw [stepWith_run hs]
    simp only [runStep, State.latchOpcode_ir, hm, lookupOpcode_opcode, need_latchOpcode,
      decodeOperands_none.mpr (Nat.le_of_not_lt hp)]

/-- Where `need` is in memory the operand bytes are too, and the step executes the row's instruction on them. -/
theorem stepWith_of_need_within {c : Config} {s : State} {m : Mnemonic} (hs : s.status = .run)
    (hm : s.mem.read s.pc.toNat = c.opcode m) (hn : need m s < 256) :
    stepWith c s =
      exec (m.withOperands (s.mem.read (s.pc.toNat + 1)) (s.mem.read (s.pc.toNat + 2))) s.latchOpcode :=
  stepWith_of_opcode hs hm (Nat.lt_of_not_le fun hp => Nat.not_le.mpr hn (need_of_missing hp))

/-- `Steps` says exactly what a step in RUN answers. -/
theorem stepWith_eq_next_iff {c : Config} {s t : State} :
    stepWith c s = .next t ↔ s.status = .run ∧ Steps c s t := by
  refine ⟨steps_of_stepWith, fun ⟨hs, h⟩ => ?_⟩
  cases h with
  | unknown h => exact stepWith_of_unknownOpcode hs h
  | missing m hm _ hn => exact stepWith_of_need_past hs hm.symm hn
  | executes m _ hm hp hx => exact (stepWith_of_opcode hs hm.symm hp).trans (exec_eq_next_iff.mpr hx)

/-- A running core has a next state. -/
theorem exists_stepWith {c : Config} {s : State} (hs : s.status = .run) : ∃ t, stepWith c s = .next t := by
  obtain ⟨t, -, h⟩ := runStep_steps c s
  exact ⟨t, stepWith_eq_next_iff.mpr ⟨hs, h⟩⟩

/-- An address that fails the check is at most 258, so it fits as the cause of a fault under the row's opcode
(40_loop_and_data.md R113, 60_exceptions.md R206). -/
theorem address_need_sound {c : Config} {m : Mnemonic} {s : State} {opcode : Byte} (hm : c.opcode m = opcode)
    (hn : 256 ≤ need m s) : (FaultCause.address (need m s)).sound c opcode := by
  have hle := need_le m s
  have hp := s.pc.isLt
  exact ⟨hn, by omega, m, hm⟩

/-- The byte the register index check reports is above 7, so it fits as the cause of a fault under the row's opcode
(60_exceptions.md R207). -/
theorem registerIndex_sound {c : Config} {i : Instr} {v opcode : Byte} (hi : c.opcode i.mnemonic = opcode)
    (hv : i.regOperands.find? (fun v => !regByteOk v) = some v) : (FaultCause.registerIndex v).sound c opcode := by
  have bad : 7 < v.toNat := by simpa [regByteOk] using List.find?_some hv
  exact ⟨bad, _, hi⟩

/-- Executing an instruction whose opcode is in `ir` takes a fault with a cause that fits, or has the instruction's own
effect. -/
theorem Executes.fault_or_effect {c : Config} {i : Instr} {s t : State} (h : Executes i s t)
    (hi : c.opcode i.mnemonic = s.ir) :
    (∃ cause : FaultCause, cause.sound c s.ir ∧ t = s.takeFault cause) ∨ Effect s i t := by
  cases h with
  | address hn => exact .inl ⟨_, address_need_sound hi hn, rfl⟩
  | registerIndex v _ hv => exact .inl ⟨_, registerIndex_sound hi hv, rfl⟩
  | effect _ _ _ he => exact .inr he

/-- THE TWO ENDS OF A STEP: after latching the opcode it takes a fault with a cause that fits, and does nothing else, or it
has the effect of the instruction at `pc`. -/
theorem Steps.fault_or_effect {c : Config} {s t : State} (h : Steps c s t) :
    (∃ cause : FaultCause, cause.sound c s.latchOpcode.ir ∧ t = s.latchOpcode.takeFault cause) ∨
    ∃ m, c.opcode m = s.mem.read s.pc.toNat ∧
      Effect s.latchOpcode (m.withOperands (s.mem.read (s.pc.toNat + 1)) (s.mem.read (s.pc.toNat + 2))) t := by
  cases h with
  | unknown h => exact .inl ⟨.decode, h, rfl⟩
  | missing m hm _ hn => exact .inl ⟨_, address_need_sound hm hn, rfl⟩
  | executes m _ hm _ hx =>
    refine (hx.fault_or_effect (c := c) ?_).imp_right fun he => ⟨m, hm, he⟩
    rwa [Mnemonic.withOperands_mnemonic]

/-- In RUN an instruction's own effect records no fault. -/
theorem Effect.not_wentWrong {i : Instr} {s t : State} (h : Effect s i t) (hs : s.status = .run) : ¬ t.wentWrong := by
  rintro ⟨record, hr⟩
  rw [h.status_eq, hs] at hr
  split at hr <;> cases hr

/-- A step that goes wrong has taken a fault after latching the opcode, with a cause that fits. -/
theorem fault_of_stepWith {c : Config} {s t : State} (h : stepWith c s = .next t) (ht : t.wentWrong) :
    ∃ cause : FaultCause, cause.sound c s.latchOpcode.ir ∧ t = s.latchOpcode.takeFault cause := by
  obtain ⟨hs, hst⟩ := steps_of_stepWith h
  rcases hst.fault_or_effect with hf | ⟨m, -, he⟩
  · exact hf
  · exact absurd ht (he.not_wentWrong hs)

/-- Settles O26: the fault is taken in the state that has latched the opcode, and changes only the status there. -/
theorem faultsArePrecise : Obligations.FaultsArePrecise := by
  intro c s t record h ht
  obtain ⟨cause, -, rfl⟩ := fault_of_stepWith h ⟨record, ht⟩
  cases ht
  exact ⟨rfl, rfl, rfl⟩

/-- Settles O30: AluMisuseFault is no cause that fits, and a step records only causes that fit. -/
theorem aluMisuseIsUnreachable : Obligations.AluMisuseIsUnreachable := by
  refine ⟨fun _ _ _ _ => rfl, fun c s t record h ht misuse => ?_⟩
  obtain ⟨cause, fits, rfl⟩ := fault_of_stepWith h ⟨record, ht⟩
  cases ht
  cases misuse
  exact fits

/-- Settles O27: the running step always has a next state, and the other statuses have their own outcome. -/
theorem stepIsDefinedExactlyInRun : Obligations.StepIsDefinedExactlyInRun := by
  intro c s
  refine ⟨⟨fun ⟨t, h⟩ => (steps_of_stepWith h).1, exists_stepWith⟩, fun hs => ?_, fun hs => ?_, fun record hs => ?_⟩
  all_goals simp only [stepWith, hs]

/-- In RUN the opcode byte of HLT leads to HALT: HLT has no check that can fail (40_loop_and_data.md R117). -/
theorem stepWith_hlt {c : Config} {s : State} (hs : s.status = .run) (hm : s.mem.read s.pc.toNat = c.opcode .hlt) :
    stepWith c s = .next (s.latchOpcode.setStatus .halt) :=
  stepWith_of_need_within hs hm s.pc.isLt

/-- Settles O28: a fault leads to FAULT; an effect leads to HALT for HLT and stays in RUN for every other row. -/
theorem statusTransitionsOfAStep : Obligations.StatusTransitionsOfAStep := by
  intro c s t h
  obtain ⟨hs, hst⟩ := steps_of_stepWith h
  have toHalt (hm : s.mem.read s.pc.toNat = c.opcode .hlt) : t.completed := by
    rw [stepWith_hlt hs hm] at h
    cases h
    rfl
  refine ⟨hs, ?_⟩
  rcases hst.fault_or_effect with ⟨cause, -, rfl⟩ | ⟨m, hm, he⟩
  · exact ⟨.inr (.inr (State.takeFault_wentWrong _ _)), nofun, toHalt⟩
  · have status := he.status_eq
    split at status
    next hlt =>
      obtain rfl := Mnemonic.eq_hlt_of_withOperands hlt
      exact ⟨.inr (.inl status), fun _ => hm.symm, toHalt⟩
    next =>
      have run : t.status = .run := status.trans hs
      refine ⟨.inl run, fun halt => ?_, toHalt⟩
      rw [State.completed, run] at halt
      cases halt

/-- A row's instruction is well-formed where each operand byte that its format makes a register operand is below 8. -/
theorem withOperands_wellFormed {m : Mnemonic} {a b : Byte} (ha : m.format ≠ .z → a.toNat < 8)
    (hb : m.format = .rr → b.toNat < 8) : (m.withOperands a b).wellFormed = true := by
  rw [Instr.wellFormed, Mnemonic.withOperands_regOperands]
  cases hf : m.format with
  | z => rfl
  | r => simp [Format.regOperands, regByteOk_of_lt (ha (by simp [hf]))]
  | ri => simp [Format.regOperands, regByteOk_of_lt (ha (by simp [hf]))]
  | rr => simp [Format.regOperands, regByteOk_of_lt (ha (by simp [hf])), regByteOk_of_lt (hb hf)]

/-- Settles O25: the checks in the order `runStep` and `exec` make them, and the effect once all have passed. -/
theorem stepFaultsInPriorityOrder : Obligations.StepFaultsInPriorityOrder := by
  intro c s hs
  refine ⟨stepWith_of_unknownOpcode hs, fun m hm => ⟨stepWith_of_need_past hs hm.symm, ?_⟩⟩
  have executed := stepWith_of_need_within (m := m) hs hm.symm
  have within {a b : Byte} (hn : need m s < 256) : need (m.withOperands a b).mnemonic s.latchOpcode < 256 := by
    rwa [Mnemonic.withOperands_mnemonic, need_latchOpcode]
  refine ⟨fun hn hf ha => ?_, fun hn hf ha hb => ?_, fun hn ha hb => ?_⟩ <;> rw [executed hn]
  · obtain ⟨vs, hvs⟩ := Format.regOperands_eq_cons hf (s.mem.read (s.pc.toNat + 1)) (s.mem.read (s.pc.toNat + 2))
    exact exec_registerIndex_of_first ((Mnemonic.withOperands_regOperands ..).trans hvs) (within hn) ha
  · refine exec_registerIndex (within hn) ?_
    simp [hf, Format.regOperands, regByteOk_of_lt ha, regByteOk_of_ge hb]
  · obtain ⟨t, ht, he⟩ := exec_effect (within hn) (withOperands_wellFormed ha hb)
    exact ⟨t, ht, he.not_wentWrong hs⟩

/-- Fetching begins with the opcode byte, because `pc` is an address of memory (20_memory.md R50). -/
theorem State.fetchBytes_eq (s : State) : s.fetchBytes = s.mem.read s.pc.toNat :: s.operandBytes :=
  if_pos s.pc.isLt

/-- Where the fetched bytes decode, the step executes what they decode to. -/
theorem stepWith_of_decode {c : Config} {s : State} {i : Instr} {rest : List Byte} (hs : s.status = .run)
    (h : decode c s.fetchBytes = .ok i rest) : stepWith c s = exec i s.latchOpcode := by
  obtain ⟨m, operands, hbytes, hd⟩ := decode_eq_ok_iff.mp h
  obtain ⟨hm, rfl⟩ := List.cons.inj (s.fetchBytes_eq.symm.trans hbytes)
  rw [stepWith_run hs]
  simp only [runStep, State.latchOpcode_ir, hm, lookupOpcode_opcode, hd]

/-- Settles O23: the fixed step is the step under the default map. -/
theorem stepRunsTheDecodedInstruction : Obligations.StepRunsTheDecodedInstruction :=
  ⟨fun _ _ _ => stepWith_of_decode, fun _ _ _ _ => stepWith_of_decode⟩

/-- Settles O36: the running step first latches the opcode, which forgets the old `ir`. -/
theorem oldInstructionRegisterIsNeverRead : Obligations.OldInstructionRegisterIsNeverRead := by
  intro c s v hs
  have hs' : { s with ir := v }.status = .run := hs
  rw [stepWith_run hs, stepWith_run hs']
  rfl

/-- There is no step in a terminal status (10_state.md R35, 60_exceptions.md R211). -/
theorem stepWith_ne_next_of_terminal {c : Config} {s : State} (h : s.wentWrong ∨ s.completed) (t : State) :
    stepWith c s ≠ .next t := by
  intro hst
  have run := (steps_of_stepWith hst).1
  rcases h with ⟨record, h⟩ | h
  · cases h.symm.trans run
  · cases h.symm.trans run

/-- Outside IDLE load and start change nothing (20_memory.md R64, the spec's decision D22). -/
theorem State.hostEvent_of_ne_idle {s : State} (h : s.status ≠ .idle) (a v : Byte) :
    s.hostEvent (.load a v) = s ∧ s.hostEvent .start = s :=
  ⟨if_neg h, if_neg h⟩

/-- Settles O29: a terminal status is not RUN, so there is no step, and not IDLE, so load and start change nothing. -/
theorem onlyResetLeavesATerminalStatus : Obligations.OnlyResetLeavesATerminalStatus := by
  intro c s h
  have notIdle : s.status ≠ .idle := by
    rcases h with ⟨record, h⟩ | h <;> exact fun idle => nomatch h.symm.trans idle
  have unchanged := State.hostEvent_of_ne_idle notIdle
  exact ⟨stepWith_ne_next_of_terminal h, rfl, (unchanged 0 0).2, fun a v => (unchanged a v).1⟩

end Sys2Proof.Machine

/-! ### PROOFS of the frames: what the instructions leave unchanged, faults included -/

namespace Sys2Proof.Machine

/-- What holds after every fault and after the instruction's own effect holds after executing it. -/
theorem Executes.of_fault_of_effect {P : State → Prop} {i : Instr} {s t : State} (h : Executes i s t)
    (fault : ∀ cause, P (s.takeFault cause)) (effect : Effect s i t → P t) : P t := by
  cases h with
  | address _ => exact fault _
  | registerIndex v _ _ => exact fault _
  | effect _ _ _ he => exact effect he

/-- No instruction writes `ir` (10_state.md R32). -/
theorem Executes.ir_eq {i : Instr} {s t : State} (h : Executes i s t) : t.ir = s.ir :=
  h.of_fault_of_effect (P := fun t => t.ir = s.ir) (fun _ => rfl) fun he => by cases he <;> rfl

/-- An instruction other than PRN leaves the output log (10_state.md R38). -/
theorem Executes.out_eq {i : Instr} {s t : State} (h : Executes i s t) (hi : i.mnemonic ≠ .prn) : t.out = s.out :=
  h.of_fault_of_effect (P := fun t => t.out = s.out) (fun _ => rfl) fun he => by
    cases he with
    | prn => exact absurd rfl hi
    | _ => rfl

/-- An effect leaves memory, or is a PUSH's or a CALL's and writes the cell below SP (20_memory.md R50, R62). -/
theorem Effect.mem_cases {i : Instr} {s t : State} (h : Effect s i t) :
    t.mem = s.mem ∨
    (i.mnemonic = .push ∨ i.mnemonic = .call) ∧ ∃ v, t.mem = s.mem.write (s.x.get spIndex - 1).toNat v := by
  cases h with
  | push v r _ _ => exact .inr ⟨.inl rfl, _, rfl⟩
  | call v r _ _ => exact .inr ⟨.inr rfl, _, rfl⟩
  | _ => exact .inl rfl

theorem Executes.mem_cases {i : Instr} {s t : State} (h : Executes i s t) :
    t.mem = s.mem ∨
    (i.mnemonic = .push ∨ i.mnemonic = .call) ∧ ∃ v, t.mem = s.mem.write (s.x.get spIndex - 1).toNat v :=
  h.of_fault_of_effect
    (P := fun t => t.mem = s.mem ∨
      (i.mnemonic = .push ∨ i.mnemonic = .call) ∧ ∃ v, t.mem = s.mem.write (s.x.get spIndex - 1).toNat v)
    (fun _ => .inl rfl) Effect.mem_cases

/-- An instruction other than PUSH and CALL leaves every cell. -/
theorem Executes.mem_read_eq {i : Instr} {s t : State} (h : Executes i s t) (hpush : i.mnemonic ≠ .push)
    (hcall : i.mnemonic ≠ .call) (n : Nat) : t.mem.read n = s.mem.read n := by
  rcases h.mem_cases with e | ⟨hi, -⟩
  · rw [e]
  · exact (hi.elim hpush hcall).elim

/-- Every instruction leaves every cell but the one below SP. -/
theorem Executes.mem_read_of_ne {i : Instr} {s t : State} (h : Executes i s t) {n : Nat}
    (hn : n ≠ (s.x.get spIndex - 1).toNat) : t.mem.read n = s.mem.read n := by
  rcases h.mem_cases with e | ⟨-, v, e⟩
  · rw [e]
  · rw [e, Memory.read_write, if_neg hn]

/-- Settles O18: none of the three is CMP, PRN, PUSH or CALL, and each writes its first operand alone. -/
theorem registerResultFrame : Obligations.RegisterResultFrame := by
  intro i v w s t hi h
  have hx := executes_of_exec h
  have unwritten (q : Reg) (hq : q.val ≠ v.toNat) : ¬ writesReg q i := by
    rcases hi with rfl | rfl | rfl <;> exact hq.symm
  have row : i.mnemonic = .ldi ∨ i.mnemonic = .add ∨ i.mnemonic = .mul := by
    rcases hi with rfl | rfl | rfl <;> simp [Instr.mnemonic]
  have other {m : Mnemonic} (hm : ¬ (m = .ldi ∨ m = .add ∨ m = .mul)) : i.mnemonic ≠ m := fun e => hm (e ▸ row)
  exact ⟨fun q hq => hx.reg_unwritten (unwritten q hq), hx.fl_eq (other (by decide)), hx.ir_eq,
    hx.out_eq (other (by decide)), hx.mem_read_eq (other (by decide)) (other (by decide))⟩

/-- Settles O19: none of the six writes a register or is PUSH or CALL. -/
theorem noRegisterResultFrame : Obligations.NoRegisterResultFrame := by
  intro i v w s t hi h
  have hx := executes_of_exec h
  have unwritten (q : Reg) : ¬ writesReg q i := by
    rcases hi with rfl | rfl | rfl | rfl | rfl | rfl <;> exact id
  have notStore : i.mnemonic ≠ .push ∧ i.mnemonic ≠ .call := by
    rcases hi with rfl | rfl | rfl | rfl | rfl | rfl <;> simp [Instr.mnemonic]
  have notCmp (hc : i ≠ .cmp v w) : i.mnemonic ≠ .cmp := by
    rcases hi with rfl | rfl | rfl | rfl | rfl | rfl
    case inr.inr.inl => exact absurd rfl hc
    all_goals exact nofun
  have notPrn (hp : i ≠ .prn v) : i.mnemonic ≠ .prn := by
    rcases hi with rfl | rfl | rfl | rfl | rfl | rfl
    case inr.inl => exact absurd rfl hp
    all_goals exact nofun
  exact ⟨fun q => hx.reg_unwritten (unwritten q), hx.ir_eq, fun hc => hx.fl_eq (notCmp hc),
    fun hp => hx.out_eq (notPrn hp), hx.mem_read_eq notStore.1 notStore.2⟩

/-- Settles O20: PUSH and CALL write SP alone among the registers, and the one cell below it. -/
theorem stackStoreFrame : Obligations.StackStoreFrame := by
  intro i v s t hi h
  have hx := executes_of_exec h
  have unwritten (q : Reg) (hq : q ≠ spIndex) : ¬ writesReg q i := by
    rcases hi with rfl | rfl <;> exact hq
  have notCmp : i.mnemonic ≠ .cmp := by rcases hi with rfl | rfl <;> exact nofun
  have notPrn : i.mnemonic ≠ .prn := by rcases hi with rfl | rfl <;> exact nofun
  exact ⟨fun q hq => hx.reg_unwritten (unwritten q hq), hx.fl_eq notCmp, hx.ir_eq, hx.out_eq notPrn,
    fun n => hx.mem_read_of_ne⟩

/-- Settles O21: POP and RET write SP and POP its operand, and neither is CMP, PRN, PUSH or CALL. -/
theorem stackLoadFrame : Obligations.StackLoadFrame := by
  intro i v s t hi h
  have hx := executes_of_exec h
  have unwritten (q : Reg) (hq : q ≠ spIndex) (hv : i = .pop v → q.val ≠ v.toNat) : ¬ writesReg q i := by
    rcases hi with rfl | rfl
    · exact not_or.mpr ⟨(hv rfl).symm, hq⟩
    · exact hq
  have row : i.mnemonic = .pop ∨ i.mnemonic = .ret := by
    rcases hi with rfl | rfl <;> simp [Instr.mnemonic]
  have other {m : Mnemonic} (hm : ¬ (m = .pop ∨ m = .ret)) : i.mnemonic ≠ m := fun e => hm (e ▸ row)
  exact ⟨fun q hq hv => hx.reg_unwritten (unwritten q hq hv), hx.fl_eq (other (by decide)), hx.ir_eq,
    hx.out_eq (other (by decide)), hx.mem_read_eq (other (by decide)) (other (by decide))⟩

end Sys2Proof.Machine

/-! ### PROOFS of CALL, HLT, and the completion, `pc`, memory and log of every instruction -/

namespace Sys2Proof.Machine

@[simp] theorem State.pushReturn_x (s : State) :
    s.pushReturn.x = s.x.set spIndex (s.x.get spIndex - 1) := rfl

/-- After the pushing half of CALL the cell the lowered SP names holds the return address, and every other cell its old
byte (42_stack_subroutine.md R164). -/
theorem State.pushReturn_read (s : State) (n : Nat) :
    s.pushReturn.mem.read n = if n = (s.pushReturn.x.get spIndex).toNat then s.pcPlus 2 else s.mem.read n :=
  Memory.read_write ..

/-- The cell the lowered SP names holds the return address `p + 2` exactly, where that is in memory. -/
theorem State.pushReturn_read_sp (s : State) (h : s.pc.toNat + 2 < 256) :
    (s.pushReturn.mem.read (s.pushReturn.x.get spIndex).toNat).toNat = s.pc.toNat + 2 := by
  rw [State.pushReturn_read, if_pos rfl, s.pcPlus_toNat 2 h]

/-- A register read after the decrement of SP: its value, one less for SP itself (42_stack_subroutine.md R168). -/
theorem RegFile.get_lowered (x : RegFile) (r : Reg) :
    (x.set spIndex (x.get spIndex - 1)).get r = if r = spIndex then x.get r - 1 else x.get r := by
  rw [RegFile.get_set]
  split
  next h => rw [h]
  next => rfl

/-- Settles O13: the address check, the register index check, and CALL's effect once both pass. -/
theorem callPushesTheReturnAddress : Obligations.CallPushesTheReturnAddress := by
  intro s v
  refine ⟨fun _ => rfl, rfl, exec_address_of_need_two rfl, exec_registerIndex_of_need_two rfl rfl,
    fun r hp hv => ?_⟩
  have next : s.pc.toNat + 2 < 256 := by omega
  refine ⟨_, exec_of_effect (.call v r hv next), ?_, fun q hq => ?_, ?_, fun n hn => ?_, rfl, rfl⟩
  · simp [Nat.add_comm]
  · simp [hq]
  · exact s.pushReturn_read_sp next
  · exact (s.pushReturn_read _).trans (if_neg hn)

/-- Settles O5: HLT has no check, so its effect is what it answers. -/
theorem hltStopsTheLoop : Obligations.HltStopsTheLoop :=
  fun _ => exec_of_effect .hlt

/-- Settles O48: past the checks an instruction has its own effect, which decides the status; RET and HLT have no check. -/
theorem wellFormedInstructionsComplete : Obligations.WellFormedInstructionsComplete := by
  refine ⟨fun i s hs hw hn => ?_, fun s hs => ⟨_, exec_of_effect .ret, hs⟩, fun s => ⟨_, exec_of_effect .hlt, rfl⟩⟩
  obtain ⟨t, ht, he⟩ := exec_effect hn hw
  exact ⟨t, ht, hs ▸ he.status_eq⟩

/-- Settles O33: a fault leaves `pc`, and so does HLT; each other effect falls through, or goes to a register's value or to
the byte SP names. -/
theorem pcAfterEachInstruction : Obligations.PcAfterEachInstruction := by
  intro i s t hs h
  have hx := executes_of_exec h
  refine ⟨?_, fun ht => ?_⟩
  · exact hx.of_fault_of_effect (P := fun t => t.wentWrong → t.pc = s.pc) (fun _ _ => rfl)
      fun he ht => absurd ht (he.not_wentWrong hs)
  · cases hx.effect_of_not_wentWrong ht with
    | hlt => rfl
    | ret => rfl
    | ldi v imm r hv hp => exact State.advance_pc_toNat _ .ldi hp
    | prn v r hv hp => exact State.advance_pc_toNat _ .prn hp
    | mul v w a b hv hw hp => exact State.advance_pc_toNat _ .mul hp
    | add v w a b hv hw hp => exact State.advance_pc_toNat _ .add hp
    | cmp v w a b hv hw hp => exact State.advance_pc_toNat _ .cmp hp
    | push v r hv hp => exact State.advance_pc_toNat _ .push hp
    | pop v r hv hp => exact State.advance_pc_toNat _ .pop hp
    | call v r hv hp => exact ⟨r, hv, s.x.get_lowered r⟩
    | jmp v r hv hp => exact ⟨r, hv, rfl⟩
    | jeqTaken v r hv he hp => exact (if_pos he).mpr ⟨r, hv, rfl⟩
    | jeqNot v r hv he hp => exact (if_neg (by simpa [equalBit] using he)).mpr (State.advance_pc_toNat _ .jeq hp)
    | jneTaken v r hv he hp => exact (if_neg (by simpa [equalBit] using he)).mpr ⟨r, hv, rfl⟩
    | jneNot v r hv he hp => exact (if_pos he).mpr (State.advance_pc_toNat _ .jne hp)

/-- Settles O34: a fault changes no cell, and executing an instruction only that of a PUSH or a CALL, below SP. -/
theorem onlyPushAndCallWriteMemory : Obligations.OnlyPushAndCallWriteMemory := by
  intro c s t n h changed
  cases (steps_of_stepWith h).2 with
  | unknown _ => exact absurd rfl changed
  | missing m _ _ _ => exact absurd rfl changed
  | executes m _ hm _ hx =>
    have row : m = .push ∨ m = .call := by
      rcases hx.mem_cases with e | ⟨row, -⟩
      · exact absurd (congrArg (Memory.read · n) e) changed
      · rwa [Mnemonic.withOperands_mnemonic] at row
    refine ⟨?_, ?_⟩
    · rcases row with rfl | rfl
      · exact .inl hm.symm
      · exact .inr hm.symm
    · by_contra hn
      exact changed (hx.mem_read_of_ne hn)

/-- `s` with older values before those in the output log. -/
def State.withOlderOut (s : State) (o : List Byte) : State := { s with out := o ++ s.out }

/-- `need` looks at no output. -/
theorem need_withOlderOut (m : Mnemonic) (s : State) (o : List Byte) : need m (s.withOlderOut o) = need m s := by
  cases m <;> rfl

/-- An effect carries older output along, because none reads the log. -/
theorem Effect.withOlderOut {i : Instr} {s t : State} (h : Effect s i t) (o : List Byte) :
    Effect (s.withOlderOut o) i (t.withOlderOut o) := by
  cases h with
  | hlt => exact .hlt
  | ret => exact .ret
  | ldi v imm r hv hp => exact .ldi v imm r hv hp
  | prn v r hv hp =>
    have appended : ((s.emit (s.x.get r)).advance .prn).withOlderOut o =
        ((s.withOlderOut o).emit ((s.withOlderOut o).x.get r)).advance .prn := by
      simp [State.withOlderOut, State.emit, State.advance, State.setPc, State.pcPlus]
    exact appended ▸ .prn v r hv hp
  | add v w a b hv hw hp => exact .add v w a b hv hw hp
  | mul v w a b hv hw hp => exact .mul v w a b hv hw hp
  | cmp v w a b hv hw hp => exact .cmp v w a b hv hw hp
  | push v r hv hp => exact .push v r hv hp
  | pop v r hv hp => exact .pop v r hv hp
  | call v r hv hp => exact .call v r hv hp
  | jmp v r hv hp => exact .jmp v r hv hp
  | jeqTaken v r hv he hp => exact .jeqTaken v r hv he hp
  | jeqNot v r hv he hp => exact .jeqNot v r hv he hp
  | jneTaken v r hv he hp => exact .jneTaken v r hv he hp
  | jneNot v r hv he hp => exact .jneNot v r hv he hp

/-- The same of an execution, faults included. -/
theorem Executes.withOlderOut {i : Instr} {s t : State} (h : Executes i s t) (o : List Byte) :
    Executes i (s.withOlderOut o) (t.withOlderOut o) := by
  have hneed := need_withOlderOut i.mnemonic s o
  cases h with
  | address hn => exact hneed ▸ .address (hneed ▸ hn)
  | registerIndex v hn hv => exact .registerIndex v (hneed ▸ hn) hv
  | effect _ hn hw he => exact .effect _ (hneed ▸ hn) hw (he.withOlderOut o)

/-- The same of a step. -/
theorem Steps.withOlderOut {c : Config} {s t : State} (h : Steps c s t) (o : List Byte) :
    Steps c (s.withOlderOut o) (t.withOlderOut o) := by
  cases h with
  | unknown h => exact .unknown h
  | missing m hm hp hn =>
    have hneed := need_withOlderOut m s o
    exact hneed ▸ .missing m hm hp (hneed ▸ hn)
  | executes m _ hm hp hx => exact .executes m _ hm hp (hx.withOlderOut o)

/-- An effect leaves the log, or is PRN's and appends the value of its register (40_loop_and_data.md R120). -/
theorem Effect.out_cases {i : Instr} {s t : State} (h : Effect s i t) :
    t.out = s.out ∨ ∃ v, ∃ r : Reg, i = .prn v ∧ v.toNat = r.val ∧ t.out = s.out ++ [s.x.get r] := by
  cases h with
  | prn v r hv _ => exact .inr ⟨v, r, rfl, hv, rfl⟩
  | _ => exact .inl rfl

/-- A row whose instruction is a PRN is PRN's row, with the first operand byte its operand. -/
theorem withOperands_eq_prn {m : Mnemonic} {a b v : Byte} (h : m.withOperands a b = .prn v) : m = .prn ∧ a = v := by
  cases m <;> cases h
  exact ⟨rfl, rfl⟩

/-- Settles O35: a fault and every effect but PRN's leave the log, and a step replayed after older output does the same. -/
theorem outputLogIsAppendedByPrnAndNeverRead : Obligations.OutputLogIsAppendedByPrnAndNeverRead := by
  intro c s t o h
  obtain ⟨hs, hst⟩ := steps_of_stepWith h
  refine ⟨?_, stepWith_eq_next_iff.mpr ⟨hs, hst.withOlderOut o⟩⟩
  rcases hst.fault_or_effect with ⟨cause, -, rfl⟩ | ⟨m, hm, he⟩
  · exact .inl rfl
  · refine he.out_cases.imp_right ?_
    rintro ⟨v, r, hi, hv, out⟩
    obtain ⟨rfl, rfl⟩ := withOperands_eq_prn hi
    exact ⟨hm.symm, r, hv, out⟩

/-- Every step leaves in `ir` the byte it fetched (10_state.md R32). -/
theorem Steps.ir_eq {c : Config} {s t : State} (h : Steps c s t) : t.ir = s.mem.read s.pc.toNat := by
  cases h with
  | unknown _ => rfl
  | missing m _ _ _ => rfl
  | executes m _ _ _ hx => exact hx.ir_eq

/-- Settles O37: PUSH leaves `pc` at the cell it stored to, and the next step latches that cell. -/
theorem pushedByteIsFetchedNext : Obligations.PushedByteIsFetchedNext := by
  intro c s r hs hm hr hp hsp
  have next : s.pc.toNat + 2 < 256 := by omega
  have pushed : stepWith c s = .next ((s.latchOpcode.pushReg r).advance .push) :=
    (stepWith_of_need_within hs hm next).trans (exec_of_effect (.push _ r hr next))
  have run : ((s.latchOpcode.pushReg r).advance .push).status = .run := hs
  obtain ⟨u, hu⟩ := exists_stepWith (c := c) run
  refine ⟨_, u, pushed, hu, ?_⟩
  have fetched : ((s.latchOpcode.pushReg r).advance .push).pc.toNat =
      ((s.latchOpcode.pushReg r).x.get spIndex).toNat :=
    (State.advance_pc_toNat _ .push next).trans hsp.symm
  rw [(steps_of_stepWith hu).2.ir_eq, fetched, State.advance_mem, State.pushReg_read, if_pos rfl]
  exact s.x.get_lowered r

end Sys2Proof.Machine

/-! ### PROOFS of the machine's invariant, the canonical form of memory, and the host's events -/

namespace Sys2Proof.Machine

/-- Settles O38: reset's fields by their values, and memory with nothing listed. -/
theorem resetValues : Obligations.ResetValues :=
  ⟨by decide, rfl, rfl, rfl, fun _ => rfl, rfl, rfl, rfl⟩

/-- Settles O39: reset records no fault. -/
theorem invariantHoldsAtReset : Obligations.InvariantHoldsAtReset :=
  fun _ => ⟨State.reset_mem_wf, by decide, nofun⟩

/-- Executing an instruction keeps the canonical form of memory (20_memory.md R55). -/
theorem Executes.mem_wf {i : Instr} {s t : State} (h : Executes i s t) (hs : s.mem.wf) : t.mem.wf := by
  rcases h.mem_cases with e | ⟨-, v, e⟩
  · rwa [e]
  · rw [e]
    exact Memory.wf_write hs (BitVec.isLt _) v

/-- So does a step. -/
theorem Steps.mem_wf {c : Config} {s t : State} (h : Steps c s t) (hs : s.mem.wf) : t.mem.wf := by
  cases h with
  | unknown _ => exact hs
  | missing m _ _ _ => exact hs
  | executes m _ _ _ hx => exact hx.mem_wf hs

/-- A step keeps the invariant, from every state that meets it: a fault it records is one it took itself. -/
theorem State.Inv.of_stepWith {c : Config} {s t : State} (h : s.Inv c) (hst : stepWith c s = .next t) : t.Inv c where
  mem_wf := (steps_of_stepWith hst).2.mem_wf h.mem_wf
  flags_legal := stepWith_fl_legal hst h.flags_legal
  fault_sound record hr := by
    obtain ⟨cause, fits, rfl⟩ := fault_of_stepWith hst ⟨record, hr⟩
    cases hr
    exact ⟨rfl, rfl, fits⟩

/-- Settles O41: the fixed step is the step under the default map. -/
theorem invariantKeptByEveryStep : Obligations.InvariantKeptByEveryStep :=
  ⟨fun _ _ => State.Inv.of_stepWith, fun _ _ _ => State.Inv.of_stepWith⟩

/-- An inward event keeps the invariant: a load keeps the canonical form, and neither load nor start records a fault. -/
theorem State.Inv.hostEvent {c : Config} {s : State} (h : s.Inv c) (e : HostEvent) : (s.hostEvent e).Inv c := by
  cases e with
  | reset => exact invariantHoldsAtReset c
  | load a v =>
    by_cases idle : s.status = .idle
    · rw [show s.hostEvent (.load a v) = s.memWrite a v from if_pos idle]
      exact ⟨State.wf_memWrite h.mem_wf a v, h.flags_legal, h.fault_sound⟩
    · rwa [(State.hostEvent_of_ne_idle idle a v).1]
  | start =>
    by_cases idle : s.status = .idle
    · rw [show s.hostEvent .start = s.setStatus .run from if_pos idle]
      exact ⟨h.mem_wf, h.flags_legal, nofun⟩
    · rwa [(State.hostEvent_of_ne_idle idle 0 0).2]

/-- Settles O42: the events one by one. -/
theorem invariantKeptByHostEvents : Obligations.InvariantKeptByHostEvents :=
  fun _ _ e h => h.hostEvent e

/-- So does any sequence of inward events. -/
theorem State.Inv.hostEvents {c : Config} {s : State} (h : s.Inv c) (es : List HostEvent) : (s.hostEvents es).Inv c := by
  induction es generalizing s with
  | nil => exact h
  | cons e es ih => exact ih (h.hostEvent e)

/-- Settles O40: launching is a sequence of inward events from reset. -/
theorem invariantHoldsAtLaunch : Obligations.InvariantHoldsAtLaunch := by
  intro c img s h
  rw [launch, if_pos (fits_of_launch h)] at h
  cases h
  exact (invariantHoldsAtReset c).hostEvents _

/-- In canonical form the listed cells are those that read as their byte, which is not 0x00 (10_state.md R41). -/
theorem Memory.mem_iff_read {m : Memory} (h : m.wf) {a : Nat} {v : Byte} : (a, v) ∈ m ↔ m.read a = v ∧ v ≠ 0 := by
  induction m with
  | nil => exact ⟨nofun, fun ⟨zero, nonzero⟩ => absurd zero.symm nonzero⟩
  | cons d m ih =>
    obtain ⟨k, w⟩ := d
    obtain ⟨rising, cells⟩ := h
    obtain ⟨below, rising⟩ := List.pairwise_cons.mp rising
    have ih := ih ⟨rising, fun c hc => cells c (List.mem_cons_of_mem _ hc)⟩
    rw [List.mem_cons, Prod.mk.injEq, Memory.read]
    by_cases hk : a = k
    · subst hk
      have unlisted : (a, v) ∉ m := fun hm => (below _ hm).false
      have nonzero : w ≠ 0 := (cells _ List.mem_cons_self).2
      simp only [unlisted, true_and, or_false, if_true]
      exact ⟨fun e => ⟨e.symm, e ▸ nonzero⟩, fun e => e.1.symm⟩
    · simp only [hk, false_and, false_or, if_false, ih]

/-- Settles O43: memories in canonical form that read alike list the same cells, in the one order their addresses rise. -/
theorem canonicalMemoriesThatReadAlikeAreEqual : Obligations.CanonicalMemoriesThatReadAlikeAreEqual := by
  intro m n hm hn alike
  have irrefl : Std.Irrefl fun c d : Host.Cell => c.1 < d.1 := ⟨fun c => lt_irrefl c.1⟩
  have antisymm : Std.Antisymm fun c d : Host.Cell => c.1 < d.1 := ⟨fun c d hcd hdc => absurd hcd hdc.asymm⟩
  refine List.Pairwise.eq_of_mem_iff hm.1 hn.1 fun c => ?_
  rw [Memory.mem_iff_read hm, Memory.mem_iff_read hn, alike]

/-- Settles O44: in IDLE an event has its effect, a load that of one write to memory; elsewhere load and start have none. -/
theorem loadAndStartActInIdleOnly : Obligations.LoadAndStartActInIdleOnly := by
  intro s a v
  refine ⟨rfl, fun h => State.hostEvent_of_ne_idle h a v, fun idle => ?_⟩
  have load : s.hostEvent (.load a v) = s.memWrite a v := if_pos idle
  rw [load]
  refine ⟨if_pos idle, rfl, ?_, fun n hn => ?_⟩
  · simp
  · simp [hn]

/-- Settles O45: what fits launches from reset with its bytes in memory. -/
theorem launchStateOfAnImage : Obligations.LaunchStateOfAnImage := by
  intro img
  refine ⟨fun h => if_neg (Nat.not_le.mpr h), fun h => ?_⟩
  obtain ⟨m, hl, cells⟩ := launch_of_fits h
  obtain ⟨registers, sp, -⟩ := resetValues
  refine ⟨_, hl, registers, sp, rfl, rfl, rfl, rfl, rfl, fun n _ => ?_⟩
  rw [cells, List.getD_eq_getElem?_getD]

end Sys2Proof.Machine

/-! ### PROOFS of the stack's round trips: R166 -/

namespace Sys2Proof.Machine

/-- Lowering SP and raising it again gives every register its old value (42_stack_subroutine.md R160). -/
theorem RegFile.get_raised_lowered (x : RegFile) (q : Reg) :
    ((x.set spIndex (x.get spIndex - 1)).set spIndex ((x.set spIndex (x.get spIndex - 1)).get spIndex + 1)).get q =
      x.get q := by
  by_cases hq : q = spIndex
  · simp [hq]
  · simp [hq]

/-- Settles O47: RET reads the cell CALL stored the return address in, and raises the SP that CALL lowered. -/
theorem callThenRetResumes : Obligations.CallThenRetResumes := by
  intro s v r hv hp
  have next : s.pc.toNat + 2 < 256 := by omega
  exact ⟨_, _, exec_of_effect (.call v r hv next), exec_of_effect .ret, s.pushReturn_read_sp next,
    s.x.get_raised_lowered, rfl⟩

theorem execAll_cons {i : Instr} {is : List Instr} {s t : State} (h : exec i s = .next t) :
    execAll (i :: is) s = execAll is t := by
  simp only [execAll, h]

/-- A sequence after another is executed from where the first ends. -/
theorem execAll_append {is js : List Instr} {s t : State} (h : execAll is s = .next t) :
    execAll (is ++ js) s = execAll js t := by
  induction is generalizing s with
  | nil => cases h; rfl
  | cons i is ih =>
    obtain ⟨u, hu, -⟩ := exec_executes i s
    rw [execAll_cons hu] at h
    rw [List.cons_append, execAll_cons hu, ih h]

/-- What straight-line stack code that leaves SP where it was does from `s` to `t`: `pc` moves past its `length`
instructions, of two bytes each; only registers and memory change beside it; and no cell changes but the `length` cells
below SP, wherever they wrap to. -/
structure Balanced (s t : State) (length : Nat) : Prop where
  sp : t.x.get spIndex = s.x.get spIndex
  pc : t.pc.toNat = s.pc.toNat + 2 * length
  frame : t = { s with x := t.x, mem := t.mem, pc := t.pc }
  mem : ∀ a : Byte, length ≤ (s.x.get spIndex - 1 - a).toNat → t.mem.read a.toNat = s.mem.read a.toNat

theorem Balanced.refl (s : State) : Balanced s s 0 := ⟨rfl, rfl, rfl, fun _ _ => rfl⟩

theorem Balanced.trans {s t u : State} {j k : Nat} (h : Balanced s t j) (h' : Balanced t u k) : Balanced s u (j + k) where
  sp := h'.sp.trans h.sp
  pc := by rw [h'.pc, h.pc]; omega
  frame := by rw [h'.frame, h.frame]
  mem a ha := by rw [h'.mem a (by rw [h.sp]; omega), h.mem a (by omega)]

/-- Cells at a distance below SP are a step nearer once SP is lowered. -/
theorem le_distance_below_lowered {p a : Byte} {k : Nat} (h : k + 1 ≤ (p - 1 - a).toNat) : k ≤ (p - 1 - 1 - a).toNat := by
  bv_omega

/-- The cell a PUSH stores to is furthest below the lowered SP, all the way round memory. -/
theorem distance_below_lowered_self (p : Byte) : (p - 1 - 1 - (p - 1)).toNat = 255 := by
  bv_omega

section Around
variable {s t : State} {r : Reg} {k : Nat} (h : Balanced ((s.pushReg r).advance .push) t k)
include h

theorem Balanced.sp_after_push : t.x.get spIndex = s.x.get spIndex - 1 := by
  simp [h.sp]

theorem Balanced.mem_after_push {a : Byte} (ha : k ≤ (s.x.get spIndex - 1 - 1 - a).toNat) :
    t.mem.read a.toNat = (s.pushReg r).mem.read a.toNat :=
  h.mem a (by simpa using ha)

/-- After a PUSH, balanced code changes only cells below the one the PUSH stored to, so SP names what it stored. -/
theorem Balanced.pushed_kept (hk : k < 256) :
    t.mem.read (t.x.get spIndex).toNat = (s.pushReg r).x.get r := by
  have top : s.x.get spIndex - 1 = (s.pushReg r).x.get spIndex := by simp
  rw [h.sp_after_push, h.mem_after_push (by rw [distance_below_lowered_self]; omega), State.pushReg_read, top, if_pos rfl]

/-- A PUSH, balanced code, and a POP into a register other than R7 are balanced code again. -/
theorem Balanced.around {q : Reg} (hq : q ≠ spIndex) (hp : s.pc.toNat + 2 * (k + 2) < 256) :
    Balanced s ((t.popReg q).advance .pop) (k + 2) := by
  have pushed : ((s.pushReg r).advance .push).pc.toNat = s.pc.toNat + 2 :=
    (s.pushReg r).advance_pc_toNat .push (show s.pc.toNat + 2 < 256 by omega)
  have inner : t.pc.toNat = s.pc.toNat + 2 + 2 * k := pushed ▸ h.pc
  have popped : ((t.popReg q).advance .pop).pc.toNat = t.pc.toNat + 2 :=
    (t.popReg q).advance_pc_toNat .pop (show t.pc.toNat + 2 < 256 by omega)
  refine ⟨?_, by omega, by rw [h.frame]; rfl, fun a ha => ?_⟩
  · simp [hq.symm, h.sp_after_push]
  · have other : a.toNat ≠ ((s.pushReg r).x.get spIndex).toNat := by
      intro e
      obtain rfl : a = s.x.get spIndex - 1 := BitVec.eq_of_toNat_eq (by simpa using e)
      simp at ha
    have kept : t.mem.read a.toNat = (s.pushReg r).mem.read a.toNat :=
      h.mem_after_push (le_distance_below_lowered (Nat.le_of_succ_le ha))
    exact kept.trans ((s.pushReg_read r _).trans (if_neg other))

end Around

/-- The instructions run from every state in which they end within memory, and are balanced. -/
def RunsBalanced (is : List Instr) : Prop :=
  ∀ s : State, s.pc.toNat + 2 * is.length < 256 → ∃ t, execAll is s = .next t ∧ Balanced s t is.length

/-- Between a PUSH of `r` and a POP into `q`, code that runs balanced does so again, and `q` gets what was pushed. -/
theorem RunsBalanced.execAll_around {is : List Instr} (h : RunsBalanced is) {s : State} {v w : Byte} {r q : Reg}
    (hv : v.toNat = r.val) (hw : w.toNat = q.val) (hq : q ≠ spIndex) (hp : s.pc.toNat + 2 * (is.length + 2) < 256) :
    ∃ t, execAll (.push v :: is ++ [.pop w]) s = .next t ∧ Balanced s t (is.length + 2) ∧
      t.x.get q = (s.pushReg r).x.get r := by
  have next : s.pc.toNat + 2 < 256 := by omega
  have pushed : ((s.pushReg r).advance .push).pc.toNat = s.pc.toNat + 2 := (s.pushReg r).advance_pc_toNat .push next
  obtain ⟨t, ht, balanced⟩ := h ((s.pushReg r).advance .push) (by omega)
  have push : exec (.push v) s = .next ((s.pushReg r).advance .push) := exec_of_effect (.push v r hv next)
  have pop : exec (.pop w) t = .next ((t.popReg q).advance .pop) :=
    exec_of_effect (.pop w q hw (by have := balanced.pc; omega))
  refine ⟨(t.popReg q).advance .pop, ?_, balanced.around hq hp, ?_⟩
  · rw [List.cons_append, execAll_cons push, execAll_append ht, execAll_cons pop]
    rfl
  · rw [← balanced.pushed_kept (by omega)]
    simp [hq]

/-- Every properly nested sequence of pushes and pops runs balanced. -/
theorem Nested.runsBalanced {is : List Instr} (h : Nested is) : RunsBalanced is := by
  induction h with
  | nil => exact fun s _ => ⟨s, rfl, .refl s⟩
  | append is js _ _ ihi ihj =>
    intro s hp
    rw [List.length_append] at hp ⊢
    obtain ⟨t, ht, before⟩ := ihi s (by omega)
    obtain ⟨u, hu, after⟩ := ihj t (by have := before.pc; omega)
    exact ⟨u, (execAll_append ht).trans hu, before.trans after⟩
  | around r q is hr hq _ ih =>
    intro s hp
    have length : (.push r :: is ++ [.pop q] : List Instr).length = is.length + 2 := by simp
    rw [length] at hp ⊢
    have notSp : (⟨q.toNat, by omega⟩ : Reg) ≠ spIndex := fun e => hq.ne (congrArg Fin.val e)
    obtain ⟨t, ht, balanced, -⟩ := ih.execAll_around (r := ⟨r.toNat, hr⟩) rfl rfl notSp hp
    exact ⟨t, ht, balanced⟩

/-- Settles O46: the nested code is balanced, so the POP loads what the PUSH stored, the old value of the register. -/
theorem pushNestedPopRestores : Obligations.PushNestedPopRestores := by
  intro s v n is hv hn nested hp
  obtain ⟨t, ht, balanced, value⟩ := nested.runsBalanced.execAll_around hv hv hn hp
  exact ⟨t, ht, value.trans (by simp [hn]), balanced.sp, balanced.pc, balanced.frame⟩

end Sys2Proof.Machine

/-! ### PROOFS of runs under a fuel bound: R116, R122 -/

namespace Sys2Proof.Machine

/-- A terminal state answers with itself, whatever the fuel, for no step leaves it. -/
theorem runFor_of_terminal {c : Config} {t : State} (h : t.completed ∨ t.wentWrong) (fuel : Nat) :
    runFor c fuel t = .ended t := by
  rw [runFor_of_no_step fuel (stepWith_ne_next_of_terminal h.symm)]
  exact State.runAnswer_eq_ended.mpr ⟨rfl, h⟩

/-- A run reaches what the next state's run reaches. -/
theorem Reaches.of_next {c : Config} {s t u : State} (h : stepWith c s = .next t) (hr : Reaches c t u) :
    Reaches c s u := by
  induction hr with
  | here => exact .next _ _ .here h
  | next v w _ hvw ih => exact .next _ _ ih hvw

/-- An answer is a terminal state the run reaches. -/
theorem reaches_of_runFor {c : Config} {fuel : Nat} {s t : State} (h : runFor c fuel s = .ended t) :
    Reaches c s t ∧ (t.completed ∨ t.wentWrong) := by
  induction fuel generalizing s with
  | zero =>
    obtain ⟨rfl, terminal⟩ := State.runAnswer_eq_ended.mp h
    exact ⟨.here, terminal⟩
  | succ fuel ih =>
    by_cases step : ∃ u, stepWith c s = .next u
    · obtain ⟨u, hu⟩ := step
      rw [runFor_succ_of_next fuel hu] at h
      exact (ih h).imp_left (.of_next hu)
    · rw [runFor_of_no_step _ (not_exists.mp step)] at h
      obtain ⟨rfl, terminal⟩ := State.runAnswer_eq_ended.mp h
      exact ⟨.here, terminal⟩

/-- A run has the answers of every state it reaches, for a little more fuel. -/
theorem Reaches.exists_runFor {c : Config} {s t : State} (h : Reaches c s t) (fuel : Nat) :
    ∃ fuel', runFor c fuel' s = runFor c fuel t := by
  induction h generalizing fuel with
  | here => exact ⟨fuel, rfl⟩
  | next t u _ htu ih =>
    rw [← runFor_succ_of_next fuel htu]
    exact ih (fuel + 1)

/-- More fuel keeps an answer. -/
theorem runFor_add {c : Config} {fuel : Nat} {s t : State} (h : runFor c fuel s = .ended t) (more : Nat) :
    runFor c (fuel + more) s = .ended t := by
  induction fuel generalizing s with
  | zero =>
    obtain ⟨rfl, terminal⟩ := State.runAnswer_eq_ended.mp h
    exact runFor_of_terminal terminal _
  | succ fuel ih =>
    by_cases step : ∃ u, stepWith c s = .next u
    · obtain ⟨u, hu⟩ := step
      rw [runFor_succ_of_next fuel hu] at h
      rw [Nat.succ_add, runFor_succ_of_next _ hu]
      exact ih h
    · have stuck := not_exists.mp step
      rw [runFor_of_no_step _ stuck] at h ⊢
      exact h

/-- Settles O49: answers are the terminal states reached, and two amounts of fuel agree with their sum. -/
theorem fuelOnlyDecidesWhetherARunAnswers : Obligations.FuelOnlyDecidesWhetherARunAnswers := by
  intro c s t
  refine ⟨⟨fun ⟨fuel, h⟩ => reaches_of_runFor h, fun ⟨reached, terminal⟩ => ?_⟩,
    fun fuel more h => runFor_add h more, fun fuel fuel' u h h' => ?_⟩
  · obtain ⟨fuel, h⟩ := reached.exists_runFor 0
    exact ⟨fuel, h.trans (runFor_of_terminal terminal 0)⟩
  · have sum := runFor_add h' fuel
    rw [Nat.add_comm, runFor_add h fuel'] at sum
    exact RunAnswer.ended.inj sum

end Sys2Proof.Machine
